-- ==== Sys2Proof/Word.lean ====
section
/-! DEFINITION. The word and byte types of M3BF (00_scope R12). -/

namespace Sys2Proof

/-- A command word, a response word, a hash value, a seed, a control register: 32 bits (R12). -/
abbrev Word := BitVec 32

/-- A key element, an opcode, a control register address: 8 bits (R12, R30). -/
abbrev Byte := BitVec 8

end Sys2Proof
end

