-- ==== Sys2Proof/Config.lean ====
section
/-! DEFINITION. What an implementation of M3BF fixes (00_scope section 4, 70 R257). -/

namespace Sys2Proof

/-- The implementation parameters, arguments of the model (R8, R9, R257). `State` carries them unchanged, so that a
statement about every state is a statement about every implementation (log 4). -/
structure Params where
  /-- `KEY_MAX`, the longest key in bytes (R8). -/
  keyMax : Word
  /-- `M_MAX`, the largest bit-array size (R9). -/
  mMax : Word
  /-- How many untaken response words the block can hold (R257); `none`: the unbounded list R257 allows a model. -/
  rspDepth : Option Nat
  deriving DecidableEq, Repr

/-- The reference parameters of R8 and R9; the response list is unbounded (log 5). -/
def Params.reference : Params := { keyMax := 4096#32, mMax := 16777216#32, rspDepth := none }

/-- The ranges of the parameters: `1 ≤ M_MAX` (R9), room for at least one whole response (R257). -/
def Params.wf (p : Params) : Bool :=
  decide (1 ≤ p.mMax.toNat) &&
    match p.rspDepth with
    | none => true
    | some d => decide (2 ≤ d)

end Sys2Proof
end

