-- ==== Sys2Proof/Machine/State.lean ====
section
/-! DEFINITION. The state of M3BF as plain data (10_state), its faults and refusals, and the state after reset (R44). -/

namespace Sys2Proof.Machine

/-- The content of the `BIT` space (R31, R52): the listed cells as (address, bit), addresses strictly rising, no listed
cell 0. An unlisted cell reads 0, which is what CFG creates (R147). -/
abbrev Memory := List (Nat × BitVec 1)

/-- Everything the spec gives the machine (R20, R41), the words of its two streams, its reset input, and the
implementation parameters that go with it (log 4). -/
structure State where
  /-- The implementation parameters `KEY_MAX`, `M_MAX` and the response buffer's depth: never written (R28, R257). -/
  par : Params
  /-- `CFGD` (R21). -/
  cfgd : Bool
  /-- `HALTED` (R22). -/
  halted : Bool
  /-- `M`, the bit-array size (R23). -/
  m : Word
  /-- `K`, the hash-function count (R24). -/
  k : Word
  /-- `SEED` (R25). -/
  seed : Word
  /-- `LASTERR` (R26). -/
  lastErr : Word
  /-- The `BIT` space (R31). -/
  bits : Memory
  /-- The words of the command in progress that have been taken, oldest first (R39, R41 (a)). -/
  taken : List Word
  /-- `pos`, the number of command words taken since reset (R40). -/
  pos : Nat
  /-- The command stream: words the host has offered and the block has not taken, oldest first (R80, R82). -/
  cmd : List Word
  /-- The response stream: words produced and not yet taken by the host, oldest first (R41 (b)). -/
  rsp : List Word
  /-- The input `rst` (R81), as it stands when the next step begins. -/
  rst : Bool
  deriving DecidableEq, Repr

/-- Why the machine stops. -/
inductive Fault where
  /-- Raised by `step` while `HALTED = 1` and `rst = 0`: no command word is taken and no response is produced
  (R22, R206: "a fault that is never cleared"). Safe: a run stops where the block does nothing. -/
  | halted
  /-- Raised by ADD and QRY at an access to a `BIT` cell that does not exist (R31, R52). R60 says that no access is out
  of range, and none is in a state that keeps the invariant. Safe: it stops where the spec gives no effect (log 9). -/
  | noSuchCell
  deriving DecidableEq, Repr

/-- Why an instruction has no meaning. -/
inductive Refusal where
  /-- Raised by `exec` for a constructor without a meaning. Safe. No constructor is in that case. -/
  | notModelled (mnemonic : String)
  deriving DecidableEq, Repr

/-- What a step or a command answers. -/
abbrev Result := Host.Outcome State Fault Refusal

/-- The machine right after reset (R44, R240), with the reference parameters (R8, R9) and nothing offered. -/
def State.reset : State where
  par := Params.reference
  cfgd := false
  halted := false
  m := 0#32
  k := 0#32
  seed := 0#32
  lastErr := 0#32
  bits := []
  taken := []
  pos := 0
  cmd := []
  rsp := []
  rst := false

end Sys2Proof.Machine
end

