-- ==== Sys2Proof/Machine/Flags.lean ====
section
/-! DEFINITION. The two flags `CFGD` and `HALTED` (R42), the view `STATUS` (R29) and the lifecycle state (R43). -/

namespace Sys2Proof.Machine

/-- `STATUS`: bit 0 is `CFGD`, bits [31:1] are zero (R29). -/
def statusReg (s : State) : Word := (BitVec.ofBool s.cfgd).setWidth 32

/-- The three lifecycle states (R43). -/
inductive Lifecycle where
  | unconfigured
  | configured
  | halt
  deriving DecidableEq, Repr

/-- The lifecycle state, a function of the two flags (R43). -/
def lifecycle (s : State) : Lifecycle :=
  if s.halted then .halt else if s.cfgd then .configured else .unconfigured

/-- `HALTED <- 1`, on `E_ILLEGAL` only (R206, R207). -/
def setHalted (s : State) : State := { s with halted := true }

end Sys2Proof.Machine
end

