-- ==== Sys2Proof/Machine/Operands.lean ====
section
/-! DEFINITION. The forms in which a command's operands are read (30_encoding section 3) and the arithmetic
primitives on 32-bit values (R14). -/

namespace Sys2Proof.Machine

/-- `sint32(a)`: two's complement (R14). -/
def sint32 (a : Word) : Int := a.toInt

/-- `rotl32(a, r)`, `0 < r < 32`: the bits that leave at the top come back at the bottom (R14). -/
def rotl32 (a : Word) (r : Nat) : Word := (a <<< r) ||| (a >>> (32 - r))

/-- `abs(sint32(a))`, the mathematical absolute value with no width limit (R14, R162). -/
def absSint (a : Word) : Nat := (sint32 a).natAbs

/-- `P = {P_HI, P_LO}` (R89). -/
def ratePattern (pHi pLo : Word) : BitVec 64 := pHi ++ pLo

/-- The patterns CFG accepts: `P` as an unsigned number is in `1 .. 0x3FEFFFFFFFFFFFFF` (R142). -/
def validRate (P : BitVec 64) : Bool := decide (0 < P.toNat) && decide (P.toNat < 0x3FF0000000000000)

/-- `n = sint32(N) > 0`, the first check of R142. -/
def validCount (n : Word) : Bool := decide (0 < sint32 n)

/-- `LEN > KEY_MAX` (R204), unsigned. -/
def tooLong (len : Word) (s : State) : Bool := decide (s.par.keyMax.toNat < len.toNat)

/-- `zext_32` of an 8-bit register address (R205). -/
def zext32 (b : Byte) : Word := b.setWidth 32

/-! ## The `KEY` space (R51): the key bytes of the command at hand -/

/-- `KeyByte(a)` (R15). An address at or beyond `LEN` does not exist and is never read (R57, R60). -/
def keyByte (key : List Byte) (a : Nat) : Byte := key.getD a 0#8

/-- `MemRead(KEY, a, n)`: `n` consecutive bytes, the lowest address in the least significant position (R15, R55), each
byte unsigned (R56). -/
def keyRead (key : List Byte) (a : Nat) : Nat → Word
  | 0 => 0#32
  | n + 1 => zext32 (keyByte key a) + 256#32 * keyRead key (a + 1) n

/-- `KeyBlock(j)` (R55). -/
def keyBlock (key : List Byte) (j : Nat) : Word := keyRead key (4 * j) 4

/-- `TailWord`, from the bytes present only (R57). -/
def tailWord (key : List Byte) : Word := keyRead key (4 * (key.length / 4)) (key.length % 4)

end Sys2Proof.Machine
end

