-- ==== Sys2Proof/Machine/Ops.lean ====
section
/-! DEFINITION. The shared operations: the bit array, the control registers, responses, and raising an error, which is
this block's way of taking an exception (60_exceptions R207). There is no return from one (R210). -/

namespace Sys2Proof.Machine

/-! ## The `BIT` space as a list of cells -/

/-- The cell at address `a`; an unlisted cell is 0. -/
def Memory.read : Memory → Nat → BitVec 1
  | [], _ => 0#1
  | (b, v) :: t, a => if a = b then v else Memory.read t a

/-- Put `v` in front of a list of higher addresses, keeping the canonical form. -/
def Memory.put (a : Nat) (v : BitVec 1) (t : Memory) : Memory := if v = 0#1 then t else (a, v) :: t

/-- Write the cell at address `a`: `MemWrite(BIT, a, 1, v)` (R15). -/
def Memory.write : Memory → Nat → BitVec 1 → Memory
  | [], a, v => Memory.put a v []
  | (b, u) :: t, a, v =>
    if a < b then Memory.put a v ((b, u) :: t)
    else if a = b then Memory.put a v t
    else (b, u) :: Memory.write t a v

/-- The canonical form from address `lo` on: addresses strictly rising, no listed cell 0. -/
def Memory.wfFrom : Nat → Memory → Bool
  | _, [] => true
  | lo, (a, v) :: t => decide (lo ≤ a) && decide (v ≠ 0#1) && Memory.wfFrom (a + 1) t

/-- The canonical form. -/
def Memory.wf (mem : Memory) : Bool := Memory.wfFrom 0 mem

/-- How many cells are 1: a property of the state, not a register (R221). -/
def Memory.countSet (mem : Memory) : Nat := mem.length

/-- A cell exists while `CFGD = 1` and its address is in `0 .. M - 1` (R31, R52). -/
def cellExists (s : State) (a : Nat) : Bool := s.cfgd && decide (a < s.m.toNat)

/-- `BitRead(a)`, a probe (R52); `none` where the cell does not exist. -/
def bitRead (a : Nat) (s : State) : Option (BitVec 1) :=
  if cellExists s a then some (Memory.read s.bits a) else none

/-- `BitSet(a)` (R52); `none` where the cell does not exist. -/
def bitSet (a : Nat) (s : State) : Option State :=
  if cellExists s a then some { s with bits := Memory.write s.bits a 1#1 } else none

/-- Set the cells of a list of addresses, one after the other (R164). -/
def setCells : List Nat → State → Option State
  | [], s => some s
  | a :: as, s =>
    match bitSet a s with
    | none => none
    | some s' => setCells as s'

/-- Probe the cells of a list of addresses, stopping at the first 0 as the source does (R166, R167). -/
def probeCells (s : State) : List Nat → Option Bool
  | [] => some true
  | a :: as =>
    match bitRead a s with
    | none => none
    | some v => if v = 0#1 then some false else probeCells s as

/-! ## Status codes and responses (R95, R200) -/

/-- The six status codes that are ever produced (R200). -/
inductive Status where
  | ok
  | eSizing
  | eState
  | eKeylen
  | eCsr
  | eIllegal
  deriving DecidableEq, Repr

/-- The numeric value of a status code (R200). -/
def Status.code : Status → Byte
  | .ok => 0x00#8
  | .eSizing => 0x01#8
  | .eState => 0x02#8
  | .eKeylen => 0x03#8
  | .eCsr => 0x04#8
  | .eIllegal => 0x05#8

/-- `{0x0000, header[7:0], code}`: response word 0 (R95), and what an error leaves in `LASTERR` (R26). -/
def statusWord (st : Status) (opc : Byte) : Word := 0#16 ++ opc ++ st.code

/-- `RspPut(w)` (R15). -/
def rspPut (w : Word) (s : State) : State := { s with rsp := s.rsp ++ [w] }

/-- The two-word response of a command (R95). -/
def respond (st : Status) (opc : Byte) (value : Word) (s : State) : State :=
  rspPut value (rspPut (statusWord st opc) s)

/-- `raise E_X(info)`: taking an exception (R207). `LASTERR` records the code and the opcode byte, the error response
is put, `E_ILLEGAL` halts the block; nothing else changes and control goes on to the next command. -/
def raise (e : Status) (opc : Byte) (info : Word) (s : State) : State :=
  let s' := respond e opc info { s with lastErr := statusWord e opc }
  match e with
  | .eIllegal => setHalted s'
  | _ => s'

/-! ## Control and status registers (R30) -/

/-- `ID`, the ASCII bytes `M`, `3`, `B`, `F` (R27). -/
def idValue : Word := 0x4D334246#32

/-- `csr[A]`: the complete map of R30; `none` where no register is mapped. -/
def csrRead (csra : Byte) (s : State) : Option Word :=
  if csra = 0x00#8 then some idValue
  else if csra = 0x01#8 then some (statusReg s)
  else if csra = 0x02#8 then some s.m
  else if csra = 0x03#8 then some s.k
  else if csra = 0x04#8 then some s.seed
  else if csra = 0x05#8 then some s.lastErr
  else if csra = 0x06#8 then some s.par.keyMax
  else if csra = 0x07#8 then some s.par.mMax
  else none

/-! ## The two streams and reset -/

/-- Whether the response buffer has room for one more response (R257). -/
def rspRoom (s : State) : Bool :=
  match s.par.rspDepth with
  | none => true
  | some d => decide (s.rsp.length + 2 ≤ d)

/-- The words of one command have been taken, `rest` is what stays on the command stream, and no command is in
progress: `pos` has advanced by the words newly taken (R40). -/
def takeCommand (rest : List Word) (s : State) : State :=
  { s with taken := [], cmd := rest, pos := s.pos + (s.cmd.length - rest.length) }

/-- Every offered word has been taken and the command in progress still owes words (R41 (a), R255). -/
def takeAll (s : State) : State :=
  { s with taken := s.taken ++ s.cmd, cmd := [], pos := s.pos + s.cmd.length }

/-- `rst` (R240, R241): all state takes the values of R44, and both streams are emptied of what was in flight, a command
in progress, words offered and not taken, responses not taken (92 D17, 93 V9; log 7). The parameters are the
implementation's. -/
def resetNow (s : State) : State := { State.reset with par := s.par }

end Sys2Proof.Machine
end

