-- ==== Sys2Proof/Machine/Enclosure.lean ====
section
/-! DEFINITION. The quantities of the sizing formulas (41_config R141, R143, R144): once over the real numbers, as the
spec defines them, and once enclosed between integers that can be computed. The logarithms are fixed-point numbers with
`prec` binary places, rounded down and rounded up. -/

namespace Sys2Proof.Machine

/-! ## Over the real numbers -/

/-- `real(P)` (R141), read from the fields of the pattern alone. -/
noncomputable def rateReal (P : BitVec 64) : ℝ :=
  if P.toNat / 2 ^ 52 % 2 ^ 11 = 0 then (P.toNat % 2 ^ 52 : Nat) * (2 : ℝ) ^ (-1074 : ℤ)
  else (2 ^ 52 + (P.toNat % 2 ^ 52 : Nat)) * (2 : ℝ) ^ ((P.toNat / 2 ^ 52 % 2 ^ 11 : Nat) - 1075 : ℤ)

/-- `x = -(n * ln(p)) / (ln 2)^2` (R143). -/
noncomputable def sizeReal (n : Nat) (P : BitVec 64) : ℝ := -(n * Real.log (rateReal P)) / Real.log 2 ^ 2

/-- `y = (m / n) * ln 2` (R144). -/
noncomputable def countReal (n m : Nat) : ℝ := (m : ℝ) / n * Real.log 2

/-- The operands that pass the checks of R142, as numbers. -/
abbrev ValidOperands (n : Nat) (P : BitVec 64) : Prop :=
  1 ≤ n ∧ n < 2 ^ 31 ∧ 0 < P.toNat ∧ P.toNat < 0x3FF0000000000000

/-! ## Enclosed between integers -/

/-- The value of an accepted operand as `A * 2^(-s)`: the pair `(A, s)` (R141). -/
def rateParts (P : BitVec 64) : Nat × Nat :=
  let E := (P.extractLsb' 52 11).toNat
  let F := (P.extractLsb' 0 52).toNat
  if E = 0 then (F, 1074) else (2 ^ 52 + F, 1075 - E)

/-- `ceil(a / b)` on natural numbers. -/
def ceilDiv (a b : Nat) : Nat := (a + (b - 1)) / b

/-- The scale of the fixed-point numbers below at precision `prec`: `v` stands for `v / 2^prec`. -/
def sizingScale (prec : Nat) : Nat := 2 ^ prec

/-- How many terms of each series are summed: each term has at least three bits less than the one before. -/
def sizingTerms (prec : Nat) : Nat := prec / 3

/-- A lower bound, at the scale, of `sum over j < t of T^(2(i+j)+1) / (2(i+j)+1)` with `T = a/c`, given a lower bound
`q` of `T^(2i+1)`. -/
def seriesLo (a c : Nat) : Nat → Nat → Nat → Nat
  | 0, _, _ => 0
  | t + 1, i, q => q / (2 * i + 1) + seriesLo a c t (i + 1) (q * a * a / (c * c))

/-- An upper bound of the whole series from term `i` on, given an upper bound `q` of `T^(2i+1)`: the terms rounded up,
and twice the first term left out for the tail (`T ≤ 1/3`). -/
def seriesHi (a c : Nat) : Nat → Nat → Nat → Nat
  | 0, _, q => 2 * q
  | t + 1, i, q => ceilDiv q (2 * i + 1) + seriesHi a c t (i + 1) (ceilDiv (q * a * a) (c * c))

/-- A lower bound of `ln((1 + a/c) / (1 - a/c)) = 2 artanh(a/c)`, at the scale. -/
def lnRatioLo (prec a c : Nat) : Nat := 2 * seriesLo a c (sizingTerms prec) 0 (sizingScale prec * a / c)

/-- An upper bound of `ln((1 + a/c) / (1 - a/c))`, at the scale. -/
def lnRatioHi (prec a c : Nat) : Nat := 2 * seriesHi a c (sizingTerms prec) 0 (ceilDiv (sizingScale prec * a) c)

/-- A lower bound of `ln 2`, at the scale: `2 = (1 + 1/3) / (1 - 1/3)`. -/
def ln2Lo (prec : Nat) : Nat := lnRatioLo prec 1 3

/-- An upper bound of `ln 2`, at the scale. -/
def ln2Hi (prec : Nat) : Nat := lnRatioHi prec 1 3

/-- A lower bound of `-ln(A * 2^(-s))`, at the scale. With `B = 2^(log2 A)`, `A/B` is in `[1, 2)` and
`-ln(A * 2^(-s)) = (s - log2 A) ln 2 - ln(A/B)`, and `A/B = (1 + T) / (1 - T)` for `T = (A - B) / (A + B)`. -/
def negLnLo (prec A s : Nat) : Nat :=
  (s - A.log2) * ln2Lo prec - lnRatioHi prec (A - 2 ^ A.log2) (A + 2 ^ A.log2)

/-- An upper bound of `-ln(A * 2^(-s))`, at the scale. -/
def negLnHi (prec A s : Nat) : Nat :=
  (s - A.log2) * ln2Hi prec - lnRatioLo prec (A - 2 ^ A.log2) (A + 2 ^ A.log2)

/-- The least integer `m` the enclosure admits: `ceil` of a lower bound of `x = -(n ln p) / (ln 2)^2` (R143). -/
def sizingMLo (prec n : Nat) (P : BitVec 64) : Nat :=
  ceilDiv (n * negLnLo prec (rateParts P).1 (rateParts P).2 * sizingScale prec) (ln2Hi prec * ln2Hi prec)

/-- The greatest integer `m` the enclosure admits. -/
def sizingMHi (prec n : Nat) (P : BitVec 64) : Nat :=
  ceilDiv (n * negLnHi prec (rateParts P).1 (rateParts P).2 * sizingScale prec) (ln2Lo prec * ln2Lo prec)

end Sys2Proof.Machine
end

