-- ==== Sys2Proof/Laws/Enclosure.lean ====
section
/-! SUPPORT. The enclosures of Machine/Enclosure.lean enclose, at every precision: the logarithms over the real numbers
lie between the fixed-point bounds, and so does the quantity that R143 rounds. -/

namespace Sys2Proof.Laws

open Sys2Proof.Machine

theorem ceilDiv_ge {a b : Nat} (hb : 0 < b) : (a : ℝ) / b ≤ (ceilDiv a b : ℝ) := by
  have h : a ≤ b * ceilDiv a b := by
    have := Nat.div_add_mod (a + (b - 1)) b
    have := Nat.mod_lt (a + (b - 1)) hb
    unfold ceilDiv
    omega
  rw [div_le_iff₀ (by exact_mod_cast hb), mul_comm]
  exact_mod_cast h

theorem cast_sub_ge (a b : Nat) : (a : ℝ) - b ≤ ((a - b : Nat) : ℝ) := by
  rw [sub_le_iff_le_add]
  exact_mod_cast (by omega : a ≤ a - b + b)

theorem cast_sub_le_max (a b : Nat) : ((a - b : Nat) : ℝ) ≤ max 0 ((a : ℝ) - b) := by
  rcases le_total b a with h | h
  · rw [Nat.cast_sub h]
    exact le_max_right _ _
  · rw [Nat.sub_eq_zero_of_le h]
    simp

theorem nat_div_le (a b : Nat) : ((a / b : Nat) : ℝ) ≤ (a : ℝ) / b := Nat.cast_div_le

theorem ceilDiv_le_iff {a b m : Nat} (hb : 0 < b) : ceilDiv a b ≤ m ↔ a ≤ m * b := by
  unfold ceilDiv
  rw [← Nat.lt_succ_iff, Nat.div_lt_iff_lt_mul hb, Nat.succ_mul]
  omega

/-- `ceilDiv` is the ceiling of the quotient. -/
theorem ceilDiv_eq_ceil {a b : Nat} (hb : 0 < b) : ceilDiv a b = ⌈(a : ℝ) / b⌉₊ := by
  refine eq_of_forall_ge_iff fun m => ?_
  rw [ceilDiv_le_iff hb, Nat.ceil_le, div_le_iff₀ (by exact_mod_cast hb)]
  exact_mod_cast Iff.rfl

section series

variable {a c prec : Nat}

/-- The term `T^(2i+1) / (2i+1)` of the series of `artanh T`, `T = a/c`. -/
noncomputable abbrev term (a c i : Nat) : ℝ := ((a : ℝ) / c) ^ (2 * i + 1) / (2 * i + 1)

theorem seriesLo_le (t i q : Nat) (hq : (q : ℝ) ≤ sizingScale prec * ((a : ℝ) / c) ^ (2 * i + 1)) :
    (seriesLo a c t i q : ℝ) ≤ sizingScale prec * ∑ j ∈ Finset.range t, term a c (i + j) := by
  induction t generalizing i q with
  | zero => simp [seriesLo]
  | succ t ih =>
    rw [seriesLo, Finset.sum_range_succ', mul_add, Nat.cast_add, add_comm]
    refine add_le_add ?_ ?_
    · refine (ih (i + 1) _ ?_).trans_eq ?_
      · refine (nat_div_le _ _).trans ?_
        push_cast
        have h2 : (0 : ℝ) ≤ (a : ℝ) * a / (c * c) := by positivity
        calc (q : ℝ) * a * a / (c * c) = q * ((a : ℝ) * a / (c * c)) := by ring
          _ ≤ (sizingScale prec * ((a : ℝ) / c) ^ (2 * i + 1)) * ((a : ℝ) * a / (c * c)) :=
            mul_le_mul_of_nonneg_right hq h2
          _ = sizingScale prec * ((a : ℝ) / c) ^ (2 * (i + 1) + 1) := by
            rw [show (a : ℝ) * a / (c * c) = ((a : ℝ) / c) ^ 2 by rw [div_pow]; ring]
            ring
      · congr 1
        exact Finset.sum_congr rfl fun j _ => by rw [show i + 1 + j = i + (j + 1) by omega]
    · refine (nat_div_le _ _).trans ?_
      rw [Nat.add_zero, term, ← mul_div_assoc]
      push_cast
      simp only [add_zero]
      gcongr

theorem seriesHi_ge (hc : 0 < c) (t i q : Nat) (hq : sizingScale prec * ((a : ℝ) / c) ^ (2 * i + 1) ≤ (q : ℝ)) :
    sizingScale prec * (∑ j ∈ Finset.range t, term a c (i + j) + 2 * ((a : ℝ) / c) ^ (2 * (i + t) + 1)) ≤
      (seriesHi a c t i q : ℝ) := by
  induction t generalizing i q with
  | zero =>
    simp only [seriesHi, Finset.range_zero, Finset.sum_empty, Nat.add_zero, Nat.cast_mul, Nat.cast_ofNat]
    linarith
  | succ t ih =>
    rw [seriesHi, Finset.sum_range_succ', Nat.cast_add]
    have h1 : sizingScale prec * term a c i ≤ (ceilDiv q (2 * i + 1) : ℝ) := by
      refine le_trans ?_ (ceilDiv_ge (by omega))
      rw [term, ← mul_div_assoc]
      push_cast
      exact div_le_div_of_nonneg_right hq (by positivity)
    have h2 := ih (i + 1) (ceilDiv (q * a * a) (c * c)) <| by
      refine le_trans ?_ (ceilDiv_ge (by positivity))
      push_cast
      calc sizingScale prec * ((a : ℝ) / c) ^ (2 * (i + 1) + 1)
          = (sizingScale prec * ((a : ℝ) / c) ^ (2 * i + 1)) * ((a : ℝ) * a / (c * c)) := by
            rw [show (a : ℝ) * a / (c * c) = ((a : ℝ) / c) ^ 2 by rw [div_pow]; ring]
            ring
        _ ≤ q * ((a : ℝ) * a / (c * c)) := mul_le_mul_of_nonneg_right hq (by positivity)
        _ = (q : ℝ) * a * a / (c * c) := by ring
    rw [show i + 1 + t = i + (t + 1) by omega] at h2
    have h3 : ∑ j ∈ Finset.range t, term a c (i + 1 + j) = ∑ j ∈ Finset.range t, term a c (i + (j + 1)) :=
      Finset.sum_congr rfl fun j _ => by rw [show i + 1 + j = i + (j + 1) by omega]
    rw [h3] at h2
    rw [Nat.add_zero]
    linarith

theorem hasSum_two_artanh (hc : 0 < c) (h3 : 3 * a ≤ c) :
    HasSum (fun i => 2 * term a c i) (Real.log (1 + (a : ℝ) / c) - Real.log (1 - (a : ℝ) / c)) := by
  have hT : (a : ℝ) / c ≤ 1 / 3 := by
    rw [div_le_div_iff₀ (by exact_mod_cast hc) (by norm_num)]
    exact_mod_cast (by omega : a * 3 ≤ 1 * c)
  have h0 : (0 : ℝ) ≤ (a : ℝ) / c := by positivity
  have := Real.hasSum_log_sub_log_of_abs_lt_one (x := (a : ℝ) / c) (by rw [abs_of_nonneg h0]; linarith)
  refine this.congr_fun fun i => ?_
  rw [term]; ring

/-- Any number of terms bounds the logarithm of a ratio from below. -/
theorem two_seriesLo_le (hc : 0 < c) (h3 : 3 * a ≤ c) (t : Nat) {q : Nat} (hq : (q : ℝ) ≤ sizingScale prec * ((a : ℝ) / c)) :
    ((2 * seriesLo a c t 0 q : Nat) : ℝ) ≤
      sizingScale prec * (Real.log (1 + (a : ℝ) / c) - Real.log (1 - (a : ℝ) / c)) := by
  have hs := sum_le_hasSum (Finset.range t) (fun i _ => by positivity) (hasSum_two_artanh hc h3)
  have hl := seriesLo_le (a := a) (c := c) t 0 q (by simpa using hq)
  simp only [Nat.zero_add] at hl
  rw [← Finset.mul_sum] at hs
  rw [Nat.cast_mul, Nat.cast_ofNat]
  have h0 : (0 : ℝ) ≤ sizingScale prec := Nat.cast_nonneg _
  have := mul_le_mul_of_nonneg_left hs h0
  linarith

/-- Any number of terms, with the tail, bounds the logarithm of a ratio from above. -/
theorem two_seriesHi_ge (hc : 0 < c) (h3 : 3 * a ≤ c) (t : Nat) {q : Nat} (hq : sizingScale prec * ((a : ℝ) / c) ≤ (q : ℝ)) :
    sizingScale prec * (Real.log (1 + (a : ℝ) / c) - Real.log (1 - (a : ℝ) / c)) ≤
      ((2 * seriesHi a c t 0 q : Nat) : ℝ) := by
  have hT : (a : ℝ) / c ≤ 1 / 3 := by
    rw [div_le_div_iff₀ (by exact_mod_cast hc) (by norm_num)]
    exact_mod_cast (by omega : a * 3 ≤ 1 * c)
  have h0 : (0 : ℝ) ≤ (a : ℝ) / c := by positivity
  have hT2 : ((a : ℝ) / c) ^ 2 ≤ 1 / 9 := by nlinarith
  have hsum := hasSum_two_artanh hc h3
  have hh := seriesHi_ge (a := a) hc t 0 q (by simpa using hq)
  simp only [Nat.zero_add] at hh
  have htailTerm (i : Nat) : 2 * term a c (i + t) ≤ 2 * ((a : ℝ) / c) ^ (2 * t + 1) * (((a : ℝ) / c) ^ 2) ^ i := by
    have hp : ((a : ℝ) / c) ^ (2 * (i + t) + 1) = ((a : ℝ) / c) ^ (2 * t + 1) * (((a : ℝ) / c) ^ 2) ^ i := by ring
    have hd : (1 : ℝ) ≤ 2 * ((i + t : Nat) : ℝ) + 1 := by
      have := Nat.cast_nonneg (α := ℝ) (i + t)
      linarith
    have hle : term a c (i + t) ≤ ((a : ℝ) / c) ^ (2 * (i + t) + 1) := div_le_self (by positivity) hd
    rw [mul_assoc, ← hp]
    linarith
  have hrest := (hasSum_nat_add_iff' t).2 hsum
  have htail := hasSum_le htailTerm hrest
    ((hasSum_geometric_of_lt_one (by positivity) (by linarith : ((a : ℝ) / c) ^ 2 < 1)).mul_left
      (2 * ((a : ℝ) / c) ^ (2 * t + 1)))
  rw [← Finset.mul_sum] at htail
  have hinv : (1 - ((a : ℝ) / c) ^ 2)⁻¹ ≤ 2 := by
    rw [inv_le_comm₀ (by linarith) (by norm_num)]
    linarith
  have hpow : (0 : ℝ) ≤ 2 * ((a : ℝ) / c) ^ (2 * t + 1) := by positivity
  have hgeo := mul_le_mul_of_nonneg_left hinv hpow
  have hS : (0 : ℝ) ≤ sizingScale prec := Nat.cast_nonneg _
  have hb : Real.log (1 + (a : ℝ) / c) - Real.log (1 - (a : ℝ) / c) ≤
      2 * (∑ j ∈ Finset.range t, term a c j + 2 * ((a : ℝ) / c) ^ (2 * t + 1)) := by
    linarith
  have := mul_le_mul_of_nonneg_left hb hS
  rw [Nat.cast_mul, Nat.cast_ofNat]
  linarith

/-- The lower bound of the logarithm of a ratio. -/
theorem lnRatioLo_le (hc : 0 < c) (h3 : 3 * a ≤ c) :
    (lnRatioLo prec a c : ℝ) ≤ sizingScale prec * (Real.log (1 + (a : ℝ) / c) - Real.log (1 - (a : ℝ) / c)) :=
  two_seriesLo_le hc h3 _ <| (nat_div_le _ _).trans_eq <| by rw [Nat.cast_mul, mul_div_assoc]

/-- The upper bound of the logarithm of a ratio. -/
theorem lnRatioHi_ge (hc : 0 < c) (h3 : 3 * a ≤ c) :
    sizingScale prec * (Real.log (1 + (a : ℝ) / c) - Real.log (1 - (a : ℝ) / c)) ≤ (lnRatioHi prec a c : ℝ) :=
  two_seriesHi_ge hc h3 _ <| le_trans (le_of_eq (by rw [Nat.cast_mul, mul_div_assoc])) (ceilDiv_ge hc)

end series

theorem log_two_eq : Real.log (1 + ((1 : Nat) : ℝ) / (3 : Nat)) - Real.log (1 - ((1 : Nat) : ℝ) / (3 : Nat)) = Real.log 2 := by
  rw [← Real.log_div (by norm_num) (by norm_num)]
  norm_num

/-- `ln 2` lies between its bounds. -/
theorem ln2Lo_le (prec : Nat) : (ln2Lo prec : ℝ) ≤ sizingScale prec * Real.log 2 :=
  (lnRatioLo_le (a := 1) (c := 3) (by norm_num) (by norm_num)).trans_eq (by rw [log_two_eq])

theorem ln2Hi_ge (prec : Nat) : sizingScale prec * Real.log 2 ≤ (ln2Hi prec : ℝ) :=
  (le_of_eq (by rw [log_two_eq])).trans (lnRatioHi_ge (a := 1) (c := 3) (by norm_num) (by norm_num))

/-- The logarithm of `A / 2^(log2 A)` as that of the ratio whose series is summed. -/
theorem log_mantissa {A : Nat} (hA : A ≠ 0) :
    Real.log (1 + ((A - 2 ^ A.log2 : Nat) : ℝ) / ((A + 2 ^ A.log2 : Nat) : ℝ)) -
      Real.log (1 - ((A - 2 ^ A.log2 : Nat) : ℝ) / ((A + 2 ^ A.log2 : Nat) : ℝ)) =
    Real.log A - A.log2 * Real.log 2 := by
  have hle : 2 ^ A.log2 ≤ A := Nat.log2_self_le hA
  have hA0 : (0 : ℝ) < A := by exact_mod_cast Nat.pos_of_ne_zero hA
  have hB0 : (0 : ℝ) < 2 ^ A.log2 := by positivity
  have hs : (A : ℝ) + 2 ^ A.log2 ≠ 0 := by positivity
  have h1 : (1 : ℝ) + (A - 2 ^ A.log2) / (A + 2 ^ A.log2) = 2 * A / (A + 2 ^ A.log2) := by
    field_simp; ring
  have h2 : (1 : ℝ) - (A - 2 ^ A.log2) / (A + 2 ^ A.log2) = 2 * 2 ^ A.log2 / (A + 2 ^ A.log2) := by
    field_simp; ring
  push_cast [Nat.cast_sub hle]
  rw [h1, h2, ← Real.log_div (by positivity) (by positivity),
    show (2 * (A : ℝ) / (A + 2 ^ A.log2)) / (2 * 2 ^ A.log2 / (A + 2 ^ A.log2)) = A / 2 ^ A.log2 by field_simp,
    Real.log_div (by positivity) (by positivity), Real.log_pow]

/-- The argument of the series is at most 1/3. -/
theorem mantissa_ratio {A : Nat} (hA : A ≠ 0) :
    0 < A + 2 ^ A.log2 ∧ 3 * (A - 2 ^ A.log2) ≤ A + 2 ^ A.log2 := by
  have h1 : 2 ^ A.log2 ≤ A := Nat.log2_self_le hA
  have h2 : A < 2 ^ (A.log2 + 1) := Nat.lt_log2_self
  rw [pow_succ] at h2
  omega

/-- `-ln(A * 2^(-s))` lies between its bounds, whenever `log2 A ≤ s`. -/
theorem negLn_bounds {prec A s : Nat} (hA : A ≠ 0) (hs : A.log2 ≤ s) :
    (negLnLo prec A s : ℝ) ≤ max 0 (sizingScale prec * -Real.log (A / 2 ^ s)) ∧
      sizingScale prec * -Real.log (A / 2 ^ s) ≤ (negLnHi prec A s : ℝ) := by
  obtain ⟨hpos, hthird⟩ := mantissa_ratio hA
  have hlo := lnRatioLo_le (prec := prec) hpos hthird
  have hhi := lnRatioHi_ge (prec := prec) hpos hthird
  rw [log_mantissa hA] at hlo hhi
  have hA0 : (A : ℝ) ≠ 0 := by exact_mod_cast hA
  have hlog : Real.log (A / 2 ^ s) =
      Real.log A - s * Real.log 2 := by
    rw [Real.log_div hA0 (by positivity), Real.log_pow]
  have hsub : ((s - A.log2 : Nat) : ℝ) = s - A.log2 :=
    Nat.cast_sub hs
  have hd : (0 : ℝ) ≤ (s : ℝ) - A.log2 := by rw [← hsub]; exact Nat.cast_nonneg _
  have hmulLo := mul_le_mul_of_nonneg_left (ln2Lo_le prec) hd
  have hmulHi := mul_le_mul_of_nonneg_left (ln2Hi_ge prec) hd
  constructor
  · have h := cast_sub_le_max ((s - A.log2) * ln2Lo prec) (lnRatioHi prec (A - 2 ^ A.log2) (A + 2 ^ A.log2))
    rw [Nat.cast_mul, hsub] at h
    rw [hlog, negLnLo]
    exact h.trans (max_le_max le_rfl (by linarith))
  · have h := cast_sub_ge ((s - A.log2) * ln2Hi prec) (lnRatioLo prec (A - 2 ^ A.log2) (A + 2 ^ A.log2))
    rw [Nat.cast_mul, hsub] at h
    rw [hlog, negLnHi]
    linarith

/-- The bounds of `ln 2` are positive, at every precision the model uses. -/
theorem ln2Lo_pos {prec : Nat} (hp : 3 ≤ prec) : 0 < ln2Lo prec := by
  have ht : 1 ≤ prec / 3 := by omega
  obtain ⟨t, ht⟩ := Nat.exists_eq_add_of_le' ht
  have hq : 1 ≤ 2 ^ prec / 3 := by
    have : 2 ^ 3 ≤ 2 ^ prec := Nat.pow_le_pow_right (by norm_num) hp
    omega
  simp only [ln2Lo, lnRatioLo, sizingTerms, sizingScale, ht, seriesLo]
  omega

theorem ln2Hi_pos (prec : Nat) : 0 < ln2Hi prec := by
  have h := ln2Hi_ge prec
  have h2 : (0 : ℝ) < sizingScale prec * Real.log 2 :=
    mul_pos (by simp [sizingScale]) (Real.log_pos (by norm_num))
  exact_mod_cast h2.trans_le h

/-- An accepted operand is `A * 2^(-s)` with the parts read off the pattern (R141). -/
theorem rateReal_eq {P : BitVec 64} (h0 : 0 < P.toNat) (h1 : P.toNat < 0x3FF0000000000000) :
    rateReal P = ((rateParts P).1 : ℝ) / 2 ^ (rateParts P).2 ∧ (rateParts P).1 ≠ 0 ∧
      (rateParts P).1 < 2 ^ (rateParts P).2 := by
  have hE : (P.extractLsb' 52 11).toNat = P.toNat / 2 ^ 52 % 2 ^ 11 := by
    simp [BitVec.extractLsb'_toNat, Nat.shiftRight_eq_div_pow]
  have hF : (P.extractLsb' 0 52).toNat = P.toNat % 2 ^ 52 := by
    simp [BitVec.extractLsb'_toNat]
  have hlt : P.toNat % 2 ^ 52 < 2 ^ 52 := Nat.mod_lt _ (by norm_num)
  have hEle : P.toNat / 2 ^ 52 % 2 ^ 11 ≤ 1022 := by omega
  simp only [rateParts, rateReal, hE, hF]
  have h52 (k : Nat) (hk : 52 < k) : 2 ^ 52 < 2 ^ k := Nat.pow_lt_pow_right (by norm_num) hk
  by_cases hz : P.toNat / 2 ^ 52 % 2 ^ 11 = 0
  · simp only [hz, if_true]
    refine ⟨?_, by omega, ?_⟩
    · rw [zpow_neg, div_eq_mul_inv, show (1074 : ℤ) = ((1074 : ℕ) : ℤ) from rfl, zpow_natCast]
    · exact lt_trans hlt (h52 _ (by norm_num))
  · simp only [hz, if_false]
    refine ⟨?_, by positivity, ?_⟩
    · generalize P.toNat / 2 ^ 52 % 2 ^ 11 = E at *
      have : ((E : ℤ) - 1075) = -((1075 - E : Nat) : ℤ) := by omega
      rw [this, zpow_neg, zpow_natCast, div_eq_mul_inv]
      push_cast
      ring
    · calc 2 ^ 52 + P.toNat % 2 ^ 52 < 2 ^ 53 := by omega
        _ ≤ 2 ^ (1075 - P.toNat / 2 ^ 52 % 2 ^ 11) := Nat.pow_le_pow_right (by norm_num) (by omega)

/-- `-ln(p)` of an accepted operand, between its bounds, and positive. -/
theorem negLn_enclosed {P : BitVec 64} (prec : Nat) (h0 : 0 < P.toNat) (h1 : P.toNat < 0x3FF0000000000000) :
    0 < -Real.log (rateReal P) ∧
      (negLnLo prec (rateParts P).1 (rateParts P).2 : ℝ) ≤ sizingScale prec * -Real.log (rateReal P) ∧
      sizingScale prec * -Real.log (rateReal P) ≤ (negLnHi prec (rateParts P).1 (rateParts P).2 : ℝ) := by
  obtain ⟨heq, hA, hlt⟩ := rateReal_eq h0 h1
  have hA0 : (0 : ℝ) < (rateParts P).1 := by exact_mod_cast Nat.pos_of_ne_zero hA
  have hpos : 0 < -Real.log (rateReal P) := by
    rw [heq, neg_pos]
    exact Real.log_neg (by positivity) ((div_lt_one (by positivity)).2 (by exact_mod_cast hlt))
  have hs : (rateParts P).1.log2 ≤ (rateParts P).2 := ((Nat.log2_lt hA).2 hlt).le
  have h := negLn_bounds (prec := prec) hA hs
  rw [← heq, max_eq_right (mul_nonneg (Nat.cast_nonneg _) hpos.le)] at h
  exact ⟨hpos, h⟩

/-- `ceil(x)` of R143 is between the two integers, at every precision the model uses. -/
theorem sizingM_enclosed {prec n : Nat} {P : BitVec 64} (hp : 3 ≤ prec) (hv : ValidOperands n P) :
    sizingMLo prec n P ≤ ⌈sizeReal n P⌉₊ ∧ ⌈sizeReal n P⌉₊ ≤ sizingMHi prec n P := by
  obtain ⟨hL, hlo, hhi⟩ := negLn_enclosed prec hv.2.2.1 hv.2.2.2
  have hS : (0 : ℝ) < sizingScale prec := by simp [sizingScale]
  have hln : 0 < Real.log 2 := Real.log_pos (by norm_num)
  have hbLo : (0 : ℝ) < ln2Lo prec := by exact_mod_cast ln2Lo_pos hp
  have hbHi : (0 : ℝ) < ln2Hi prec := by exact_mod_cast ln2Hi_pos prec
  have hx : sizeReal n P =
      (n * (sizingScale prec * -Real.log (rateReal P)) * sizingScale prec) /
        ((sizingScale prec * Real.log 2) * (sizingScale prec * Real.log 2)) := by
    rw [sizeReal]
    field_simp
  rw [sizingMLo, sizingMHi, ceilDiv_eq_ceil (Nat.mul_pos (ln2Hi_pos prec) (ln2Hi_pos prec)),
    ceilDiv_eq_ceil (Nat.mul_pos (ln2Lo_pos hp) (ln2Lo_pos hp)), hx]
  push_cast
  constructor
  · refine Nat.ceil_mono (div_le_div₀ ?_ ?_ (by positivity) ?_)
    · positivity
    · gcongr
    · exact mul_le_mul (ln2Hi_ge prec) (ln2Hi_ge prec) (by positivity) (by positivity) 
  · refine Nat.ceil_mono (div_le_div₀ (by positivity) ?_ (by positivity) ?_)
    · gcongr
    · exact mul_le_mul (ln2Lo_le prec) (ln2Lo_le prec) (by positivity) (by positivity)

end Sys2Proof.Laws
end

