-- ==== Sys2Proof/Machine/Sizing.lean ====
section
/-! DEFINITION. The sizing function of CFG (41_config R143, R144, R150), exact on every accepted pair of operands. -/

namespace Sys2Proof.Machine

/-- The precision the computation begins with, in binary places. -/
def sizingBits : Nat := 192

/-- Look for a precision at which the enclosure of `x` admits one integer, 64 binary places more at each try. The type
says what the value is, `m = ceil(x)` (R143), and `Laws.sizingM_enclosed` is why the integer found is that one. If `x`
were exactly an integer no precision would do: the definition is by `partial_fixpoint`, so that its value is
`ceil(x)` there too, while an evaluation would not end (log 10). -/
def sizingSearch (n : Nat) (P : BitVec 64) (hv : ValidOperands n P) (tries : Nat) :
    { m : Nat // m = ⌈sizeReal n P⌉₊ } :=
  if h : sizingMHi (sizingBits + 64 * tries) n P ≤ sizingMLo (sizingBits + 64 * tries) n P then
    ⟨sizingMLo (sizingBits + 64 * tries) n P,
      le_antisymm (Laws.sizingM_enclosed (by simp only [sizingBits]; omega) hv).1
        ((Laws.sizingM_enclosed (by simp only [sizingBits]; omega) hv).2.trans h)⟩
  else sizingSearch n P hv (tries + 1)
partial_fixpoint

/-- `m = ceil(x)` (R143), the full value before any truncation (R145). The first precision is tried apart from the
search, so that the kernel can evaluate it. Operands that CFG does not accept have no size. -/
def sizingM (n : Nat) (P : BitVec 64) : Nat :=
  if hv : ValidOperands n P then
    if sizingMHi sizingBits n P ≤ sizingMLo sizingBits n P then sizingMLo sizingBits n P
    else (sizingSearch n P hv 1).1
  else 0

/-- `k = max(1, round((m / n) ln 2))`, with `round(y) = floor(y + 1/2)` (R144). The lower bound of `ln 2` decides it:
no half-integer lies between the two bounds of `y`. -/
def sizingK (n m : Nat) : Nat :=
  max 1 ((2 * m * ln2Lo sizingBits + n * sizingScale sizingBits) / (2 * n * sizingScale sizingBits))

end Sys2Proof.Machine
end

