-- ==== Sys2Proof/Machine/Cfg.lean ====
section
/-! DEFINITION. The CFG command: construction of the Filter (41_config R140). -/

namespace Sys2Proof.Machine

/-- The commit of R147: `M`, `K`, `SEED` are written, the `BIT` space is created with cells `0 .. m-1` all 0, and
`CFGD <- 1`. -/
def commitFilter (m k : Nat) (seed : Word) (s : State) : State :=
  { s with m := BitVec.ofNat 32 m, k := BitVec.ofNat 32 k, seed := seed, bits := [], cfgd := true }

/-- The checks of R146 on the computed size, on its full value (R145). -/
def sizeFits (m : Nat) (s : State) : Bool := decide (1 ≤ m) && decide (m ≤ s.par.mMax.toNat)

/-- CFG (R140): the checks in the order of R208, then the commit. -/
def execCfg (n pLo pHi seed : Word) (s : State) : Result :=
  if s.cfgd then .next (raise .eState 0x01#8 (statusReg s) s)
  else if !validCount n then .next (raise .eSizing 0x01#8 1#32 s)
  else if !validRate (ratePattern pHi pLo) then .next (raise .eSizing 0x01#8 2#32 s)
  else
    let m := sizingM n.toNat (ratePattern pHi pLo)
    if !sizeFits m s then .next (raise .eSizing 0x01#8 3#32 s)
    else .next (respond .ok 0x01#8 (BitVec.ofNat 32 m) (commitFilter m (sizingK n.toNat m) seed s))

end Sys2Proof.Machine
end

