-- ==== Sys2Proof/Machine/Hash.lean ====
section
/-! DEFINITION. The Murmur3-32 hash core (40_hash): its stages, the whole function, and the HASH command. -/

namespace Sys2Proof.Machine

/-! ## Constants (R110) -/

/-- `C1`. -/
def hashC1 : Word := 0xCC9E2D51#32
/-- `C2`. -/
def hashC2 : Word := 0x1B873593#32
/-- `MUL5`. -/
def hashMul5 : Word := 5#32
/-- `ADDN`. -/
def hashAddN : Word := 0xE6546B64#32
/-- `F1`. -/
def hashF1 : Word := 0x85EBCA6B#32
/-- `F2`. -/
def hashF2 : Word := 0xC2B2AE35#32

/-! ## Stages -/

/-- Stage SCRAMBLE (R114). -/
def scr (w : Word) : Word := rotl32 (w * hashC1) 15 * hashC2

/-- Stage ACCUMULATE (R115). -/
def acc (h s : Word) : Word := rotl32 (h ^^^ s) 13 * hashMul5 + hashAddN

/-- `h xor (h >> r)`, the shift logical (R112, R118). -/
def xorShift (h : Word) (r : Nat) : Word := h ^^^ (h >>> r)

/-- Stage FINALIZE (R118): three xor-shifts and two multiplications. -/
def fmix (h : Word) : Word := xorShift (xorShift (xorShift h 16 * hashF1) 13 * hashF2) 16

/-- Stages READ, SCRAMBLE and ACCUMULATE over the full blocks, in increasing `j` (R113 to R115). -/
def hashBlocks (key : List Byte) (h : Word) : Word :=
  (List.range (key.length / 4)).foldl (fun h j => acc h (scr (keyBlock key j))) h

/-- Stage TAIL, only when 1 to 3 bytes are left (R116). -/
def hashTail (key : List Byte) (h : Word) : Word :=
  if key.length % 4 ≠ 0 then h ^^^ scr (tailWord key) else h

/-- Stage LENGTH (R117). The length of every key that can be sent fits in 32 bits. For a byte list of `2^32` bytes or more,
which no command carries (92 D11), the low 32 bits of its length stand here, a choice of the model (DESIGN CHOICE,
log 18). -/
def hashLength (key : List Byte) (h : Word) : Word := h ^^^ BitVec.ofNat 32 key.length

/-- `Hash(D, seed)` (R119). -/
def hash (key : List Byte) (seed : Word) : Word :=
  fmix (hashLength key (hashTail key (hashBlocks key seed)))

/-! ## The HASH command -/

/-- HASH (R120). -/
def execHash (hseed len : Word) (data : List Byte) (s : State) : Result :=
  if tooLong len s then .next (raise .eKeylen 0x04#8 len s)
  else .next (respond .ok 0x04#8 (hash data hseed) s)

end Sys2Proof.Machine
end

