-- ==== Sys2Proof/Machine/Filter.lean ====
section
/-! DEFINITION. The index calculator and the commands ADD and QRY (42_filter_ops). -/

namespace Sys2Proof.Machine

/-- The lane seed `SD_i = SEED +32 i` (R161). -/
def laneSeed (s : State) (i : Nat) : Word := s.seed + BitVec.ofNat 32 i

/-- The index reduction `abs(sint32(HV)) mod M` (R162). -/
def reduceIndex (hv m : Word) : Nat := absSint hv % m.toNat

/-- `Index(D, i)` (R162). -/
def filterIndex (s : State) (key : List Byte) (i : Nat) : Nat := reduceIndex (hash key (laneSeed s i)) s.m

/-- The `K` indices of a key, in the order `i = 0 .. K-1` (R160). -/
def filterIndices (s : State) (key : List Byte) : List Nat :=
  (List.range s.k.toNat).map (filterIndex s key)

/-- ADD (R164). -/
def execAdd (len : Word) (key : List Byte) (s : State) : Result :=
  if !s.cfgd then .next (raise .eState 0x02#8 (statusReg s) s)
  else if tooLong len s then .next (raise .eKeylen 0x02#8 len s)
  else
    match setCells (filterIndices s key) s with
    | some s' => .next (respond .ok 0x02#8 0#32 s')
    | none => .fault .noSuchCell

/-- QRY (R166): answers 1 if and only if every cell of the key is 1 (R167). -/
def execQry (len : Word) (key : List Byte) (s : State) : Result :=
  if !s.cfgd then .next (raise .eState 0x03#8 (statusReg s) s)
  else if tooLong len s then .next (raise .eKeylen 0x03#8 len s)
  else
    match probeCells s (filterIndices s key) with
    | some r => .next (respond .ok 0x03#8 ((BitVec.ofBool r).setWidth 32) s)
    | none => .fault .noSuchCell

end Sys2Proof.Machine
end

