-- ==== Sys2Proof/Machine/System.lean ====
section
/-! DEFINITION. The RDCSR command (43_system R190). -/

namespace Sys2Proof.Machine

/-- RDCSR (R190): an unmapped address answers `E_CSR` (R205). -/
def execRdcsr (csra : Byte) (s : State) : Result :=
  match csrRead csra s with
  | some v => .next (respond .ok 0x05#8 v s)
  | none => .next (raise .eCsr 0x05#8 (zext32 csra) s)

end Sys2Proof.Machine
end

