-- ==== Sys2Proof/Syntax.lean ====
section
/-! DEFINITION. The five commands of M3BF (30_encoding R84), one constructor per row of spec/opcode_table.json. -/

namespace Sys2Proof

/-- A command with its operands, as the decoder of R91 hands it to the rule of its family. -/
inductive Instr where
  /-- CFG (R85, R140): `N`, `P_LO`, `P_HI`, `SEED`. -/
  | cfg (n pLo pHi seed : Word)
  /-- ADD (R86, R164): `LEN` and the key bytes. -/
  | add (len : Word) (key : List Byte)
  /-- QRY (R86, R166): `LEN` and the key bytes. -/
  | qry (len : Word) (key : List Byte)
  /-- HASH (R87, R120): `HSEED`, `LEN` and the data bytes. -/
  | hash (hseed len : Word) (data : List Byte)
  /-- RDCSR (R88, R190): the register address. -/
  | rdcsr (csra : Byte)
  deriving DecidableEq, Repr

end Sys2Proof
end

