-- ==== Sys2Proof/Machine/Dispatch.lean ====
section
/-! DEFINITION. One arm per command. -/

namespace Sys2Proof.Machine

def exec (i : Instr) (s : State) : Host.Outcome State Fault Refusal :=
  match i with
  | .cfg n pLo pHi seed => Sys2Proof.Machine.execCfg n pLo pHi seed s
  | .add len key => Sys2Proof.Machine.execAdd len key s
  | .qry len key => Sys2Proof.Machine.execQry len key s
  | .hash hseed len data => Sys2Proof.Machine.execHash hseed len data s
  | .rdcsr csra => Sys2Proof.Machine.execRdcsr csra s

end Sys2Proof.Machine
end

