-- ==== Sys2Proof/WellFormed.lean ====
section
/-! DEFINITION. Which terms of `Instr` are commands: a key has exactly `LEN` bytes (R86, R87, R92). -/

namespace Sys2Proof

/-- The key or data of an ADD, QRY or HASH is `D[0 .. LEN-1]` (R92); every operand word and every register address is
legal (R89, R88). -/
def Instr.wf : Instr → Bool
  | .cfg _ _ _ _ => true
  | .add len key => key.length == len.toNat
  | .qry len key => key.length == len.toNat
  | .hash _ len data => data.length == len.toNat
  | .rdcsr _ => true

end Sys2Proof
end

