-- ==== Sys2Proof/Decode.lean ====
section
/-! DEFINITION. From a stream of command words to a command (30_encoding R83 to R94, R97), and the encoder beside it. -/

namespace Sys2Proof

/-- Why no command can be read from the words at hand: the three ways a header is illegal (R97), or a command whose
words have not all arrived (R41, R255). -/
inductive Reject where
  /-- A non-zero `RSV` field (R97). -/
  | rsvNonzero (header : Word)
  /-- A non-zero `ARG` field with `OPC` in `0x01 .. 0x04` (R97). -/
  | argNonzero (header : Word)
  /-- An `OPC` outside `0x01 .. 0x05` (R97). -/
  | noSuchOpcode (header : Word)
  /-- Not illegal: at least `owed` more words are still to come (R41 (a)). -/
  | waiting (owed : Nat)
  deriving DecidableEq, Repr

/-- The illegal header word, if the rejection is one that raises `E_ILLEGAL` (R97, R206). -/
def Reject.illegalHeader : Reject → Option Word
  | .rsvNonzero w => some w
  | .argNonzero w => some w
  | .noSuchOpcode w => some w
  | .waiting _ => none

/-! ## The header word (R83) -/

/-- `OPC = header[7:0]`. -/
def opcOf (header : Word) : Byte := header.extractLsb' 0 8

/-- `ARG = header[15:8]`. -/
def argOf (header : Word) : Byte := header.extractLsb' 8 8

/-- `RSV = header[31:16]`. -/
def rsvOf (header : Word) : BitVec 16 := header.extractLsb' 16 16

/-- The opcode of a command (R84). -/
def Instr.opc : Instr → Byte
  | .cfg _ _ _ _ => 0x01#8
  | .add _ _ => 0x02#8
  | .qry _ _ => 0x03#8
  | .hash _ _ _ => 0x04#8
  | .rdcsr _ => 0x05#8

/-! ## Payload packing (R93, R94) -/

/-- `ceil(LEN/4) = (LEN + 3) div 4`, without overflow (R90). -/
def payloadWords (len : Nat) : Nat := (len + 3) / 4

/-- The bytes of a payload word: byte `4q + t` in bits `[8t+7 : 8t]` (R93). -/
def wordBytes (w : Word) : List Byte :=
  [w.extractLsb' 0 8, w.extractLsb' 8 8, w.extractLsb' 16 8, w.extractLsb' 24 8]

/-- The payload word that carries four bytes (R93). -/
def packWord (b0 b1 b2 b3 : Byte) : Word := b3 ++ b2 ++ b1 ++ b0

/-- The payload words of a key, unused byte positions zero (R93, R98). -/
def packBytes : List Byte → List Word
  | [] => []
  | [b0] => [packWord b0 0#8 0#8 0#8]
  | [b0, b1] => [packWord b0 b1 0#8 0#8]
  | [b0, b1, b2] => [packWord b0 b1 b2 0#8]
  | b0 :: b1 :: b2 :: b3 :: rest => packWord b0 b1 b2 b3 :: packBytes rest

/-- `TakePayload(LEN)` (R91): `ceil(LEN/4)` words are taken, the first `LEN` bytes are the key, the byte positions
beyond are dropped (R94). Whether `LEN > KEY_MAX` is judged by the command's own rule (R208; log 11). -/
def takePayload (len : Word) (ws : List Word) : Except Reject (List Byte × List Word) :=
  if payloadWords len.toNat ≤ ws.length then
    .ok (((ws.take (payloadWords len.toNat)).flatMap wordBytes).take len.toNat, ws.drop (payloadWords len.toNat))
  else
    .error (.waiting (payloadWords len.toNat - ws.length))

/-! ## The decoder (R91) -/

/-- Format C after its header (R85): word 1 `N`, word 2 `P_LO`, word 3 `P_HI`, word 4 `SEED`. -/
def decodeC : List Word → Except Reject (Instr × List Word)
  | n :: pLo :: pHi :: seed :: rest => .ok (.cfg n pLo pHi seed, rest)
  | ws => .error (.waiting (4 - ws.length))

/-- Format K after its header (R86): `LEN`, then the payload. -/
def decodeK (mk : Word → List Byte → Instr) : List Word → Except Reject (Instr × List Word)
  | len :: ws =>
    match takePayload len ws with
    | .ok (key, rest) => .ok (mk len key, rest)
    | .error e => .error e
  | [] => .error (.waiting 1)

/-- Format H after its header (R87): `HSEED`, `LEN`, then the payload. -/
def decodeH : List Word → Except Reject (Instr × List Word)
  | hseed :: len :: ws =>
    match takePayload len ws with
    | .ok (data, rest) => .ok (.hash hseed len data, rest)
    | .error e => .error e
  | ws => .error (.waiting (2 - ws.length))

/-- Decoding, the whole algorithm of R91: the first command of a word stream and the words after it, or why there is
none. A header is judged alone, before any operand word (R208). -/
def decode : List Word → Except Reject (Instr × List Word)
  | [] => .error (.waiting 1)
  | w0 :: ws =>
    if rsvOf w0 ≠ 0#16 then .error (.rsvNonzero w0)
    else if opcOf w0 = 0x01#8 then
      if argOf w0 ≠ 0#8 then .error (.argNonzero w0) else decodeC ws
    else if opcOf w0 = 0x02#8 then
      if argOf w0 ≠ 0#8 then .error (.argNonzero w0) else decodeK .add ws
    else if opcOf w0 = 0x03#8 then
      if argOf w0 ≠ 0#8 then .error (.argNonzero w0) else decodeK .qry ws
    else if opcOf w0 = 0x04#8 then
      if argOf w0 ≠ 0#8 then .error (.argNonzero w0) else decodeH ws
    else if opcOf w0 = 0x05#8 then .ok (.rdcsr (argOf w0), ws)
    else .error (.noSuchOpcode w0)

/-! ## The encoder (R85 to R88) -/

/-- The header word `{RSV = 0, ARG, OPC}` (R83). -/
def header (arg opc : Byte) : Word := 0#16 ++ arg ++ opc

/-- The words of a command. -/
def encode : Instr → List Word
  | .cfg n pLo pHi seed => [header 0#8 0x01#8, n, pLo, pHi, seed]
  | .add len key => header 0#8 0x02#8 :: len :: packBytes key
  | .qry len key => header 0#8 0x03#8 :: len :: packBytes key
  | .hash hseed len data => header 0#8 0x04#8 :: hseed :: len :: packBytes data
  | .rdcsr csra => [header csra 0x05#8]

/-- `CmdLen`, the length of a command in words (R90). -/
def Instr.cmdLen : Instr → Nat
  | .cfg _ _ _ _ => 5
  | .add len _ => 2 + payloadWords len.toNat
  | .qry len _ => 2 + payloadWords len.toNat
  | .hash _ len _ => 3 + payloadWords len.toNat
  | .rdcsr _ => 1

/-! ## One instruction given as a number (the host's reading of spec/opcode_table.json) -/

/-- Word `i` of an instruction whose bits are `w`, bit 0 the least significant bit of the first word. -/
def tableWord (w i : Nat) : Word := BitVec.ofNat 32 (w >>> (32 * i))

/-- How many words the instruction numbered `w` has (R90); an illegal header is one word (R206). -/
def tableLength (w : Nat) : Nat :=
  if rsvOf (tableWord w 0) ≠ 0#16 then 1
  else if opcOf (tableWord w 0) = 0x01#8 then 5
  else if opcOf (tableWord w 0) = 0x02#8 then 2 + payloadWords (tableWord w 1).toNat
  else if opcOf (tableWord w 0) = 0x03#8 then 2 + payloadWords (tableWord w 1).toNat
  else if opcOf (tableWord w 0) = 0x04#8 then 3 + payloadWords (tableWord w 2).toNat
  else 1

/-- The words of the instruction numbered `w`, the bits above `nbits` zero. -/
def tableWords (nbits w : Nat) : List Word :=
  (List.range (tableLength (w % 2 ^ nbits))).map (tableWord (w % 2 ^ nbits))

/-- What the decoder reads from an instruction whose bits are `w`, the bits above `nbits` zero. -/
def decodeTableWord (nbits w : Nat) : Option Instr :=
  match decode (tableWords nbits w) with
  | .ok (i, _) => some i
  | .error _ => none

end Sys2Proof
end

