-- ==== Sys2Proof/Machine/Fetch.lean ====
section
/-! DEFINITION. Taking a command from the stream (R39, R40, R91), and what an illegal header does (R206). -/

namespace Sys2Proof.Machine

/-- The words from the header of the command in progress on: those already taken, then those offered. -/
def streamWords (s : State) : List Word := s.taken ++ s.cmd

/-- An illegal header (R206): that one word is taken and no further word, then `E_ILLEGAL` is raised, which halts. -/
def illegalCommand (w : Word) (s : State) : State :=
  raise .eIllegal (opcOf w) w (takeCommand (streamWords s).tail s)

/-- No whole command has arrived: the words offered so far are taken and the block waits (R41 (a), R225, R255). -/
def awaitWords (s : State) : State := takeAll s

/-- The state that runs the instruction with the words `ws` next: they stand first in the command
stream and no command is in progress (R40, log 12). -/
def placeWords (ws : List Word) (s : State) : State := { s with taken := [], cmd := ws ++ s.cmd }

end Sys2Proof.Machine
end

