-- ==== Sys2Proof/Machine/Step.lean ====
section
/-! DEFINITION. One step of the block: one whole command, or a reset, or a wait for words (R39, R62, R240, R225). -/

namespace Sys2Proof.Machine

/-- One step. Reset wins over everything (R211, R241). A halted block takes no word (R206). A block with no room for a
response finishes no command (R257). Otherwise the next command of the stream runs, an illegal header halts the block,
or the block waits for the words that are still owed. -/
def step (s : State) : Host.Outcome State Fault Refusal :=
  if s.rst then .next (resetNow s)
  else if s.halted then .fault .halted
  else if !rspRoom s then .next s
  else
    match decode (streamWords s) with
    | .ok (i, rest) => exec i (takeCommand rest s)
    | .error e =>
      match e.illegalHeader with
      | some w => .next (illegalCommand w s)
      | none => .next (awaitWords s)

/-- The state with one instruction, numbered as spec/opcode_table.json numbers it, first in the command stream. -/
def State.withFetchWord (s : State) (nbits w : Nat) : State := placeWords (tableWords nbits w) s

end Sys2Proof.Machine
end

