-- ==== Sys2Proof/Machine/Assembler.lean ====
section
/-! DEFINITION. The textual notation of commands (30_encoding section 7, R98 to R101): literals, the five commands, the
five pseudo-instructions, and the words a line stands for. Host-side: the block itself takes words only (R6, R100). -/

namespace Sys2Proof.Machine

/-- The register names of RDCSR (R98). -/
inductive CsrName where
  | id
  | status
  | m
  | k
  | seed
  | lasterr
  | keymax
  | mmax
  deriving DecidableEq, Repr

/-- The address of a named register (R30). -/
def csrAddress : CsrName → Byte
  | .id => 0x00#8
  | .status => 0x01#8
  | .m => 0x02#8
  | .k => 0x03#8
  | .seed => 0x04#8
  | .lasterr => 0x05#8
  | .keymax => 0x06#8
  | .mmax => 0x07#8

/-- A key literal: a hex byte string or a text (R98, R100). -/
inductive KeyLit where
  | bytes (bs : List Byte)
  | text (cs : List Char)
  deriving DecidableEq, Repr

/-- The bytes of a key literal; a text stands for its UTF-8 bytes, with no terminator, length or mark (R100). -/
def keyLitBytes : KeyLit → List Byte
  | .bytes bs => bs
  | .text cs => cs.flatMap fun c => (String.utf8EncodeChar c).map UInt8.toBitVec

/-- A literal for `p` (R99): a 64-bit pattern, or the decimal real `± digits / 10^scale`. -/
inductive RateLit where
  | pattern (P : BitVec 64)
  | decimal (negative : Bool) (digits scale : Nat)
  deriving DecidableEq, Repr

/-- The integer nearest to `a / b`, ties to even. -/
def nearestEven (a b : Nat) : Nat :=
  if 2 * (a % b) < b then a / b
  else if b < 2 * (a % b) then a / b + 1
  else a / b + a / b % 2

/-- The binary64 pattern, sign bit 0, nearest to `num / den`, ties to the pattern with an even last bit (R99, R141);
`t` is the exponent of the last fraction bit above the smallest one, `-1074`. A value that rounds above the largest finite
value gives the pattern of infinity, `0x7FF0000000000000`: R99 says nothing of such a literal, and this is the model's
choice (PRESUMED, log 14); CFG answers `E_SIZING` to it as to every value from 1 on. -/
def nearestBinary64 (num den : Nat) : Nat :=
  if num = 0 then 0
  else
    let t0 := num.log2 + 1022 - den.log2
    let t := if num * 2 ^ 1074 < den * 2 ^ t0 * 2 ^ 52 then t0 - 1 else t0
    min (t * 2 ^ 52 + nearestEven (num * 2 ^ 1074) (den * 2 ^ t)) (0x7FF * 2 ^ 52)

/-- The pattern a literal for `p` stands for (R99). -/
def rateLitPattern : RateLit → BitVec 64
  | .pattern P => P
  | .decimal negative digits scale =>
    BitVec.ofNat 64 ((if negative then 2 ^ 63 else 0) + nearestBinary64 digits (10 ^ scale))

/-- One line of the notation: a command (R98) or a pseudo-instruction (R101). -/
inductive AsmLine where
  | cfg (n : Int) (p : RateLit) (seed : Int)
  | add (key : KeyLit)
  | qry (key : KeyLit)
  | hash (key : KeyLit) (seed : Int)
  | rdcsrName (name : CsrName)
  | rdcsrAddr (addr : Byte)
  | new (n : Int) (p : RateLit) (seed : Int)
  | mightContain (key : KeyLit)
  | hash32 (key : KeyLit) (seed : Int)
  | rdm
  | rdk
  deriving DecidableEq, Repr

/-- The one command a pseudo-instruction expands to (R101); a command stays itself. -/
def expandPseudo : AsmLine → AsmLine
  | .new n p seed => .cfg n p seed
  | .mightContain key => .qry key
  | .hash32 key seed => .hash key seed
  | .rdm => .rdcsrName .m
  | .rdk => .rdcsrName .k
  | l => l

/-- `LEN`, the number of key bytes (R98). A key of `2^32` bytes or more has no `LEN`: R98 does not say what becomes of it
and 92 D11 says that it cannot be expressed. No line of text gives one (`readKey`); for a literal made by hand the low 32
bits stand here, a choice of the model that no command rests on (DESIGN CHOICE, log 17). -/
def keyLitLen (key : KeyLit) : Word := BitVec.ofNat 32 (keyLitBytes key).length

/-- The CFG command of a line; a negative literal stands for its two's-complement pattern (R89, R98). -/
def assembleCfg (n : Int) (p : RateLit) (seed : Int) : Instr :=
  .cfg (BitVec.ofInt 32 n) ((rateLitPattern p).extractLsb' 0 32) ((rateLitPattern p).extractLsb' 32 32)
    (BitVec.ofInt 32 seed)

/-- The command a line stands for (R98, R101). -/
def assemble : AsmLine → Instr
  | .cfg n p seed => assembleCfg n p seed
  | .add key => .add (keyLitLen key) (keyLitBytes key)
  | .qry key => .qry (keyLitLen key) (keyLitBytes key)
  | .hash key seed => .hash (BitVec.ofInt 32 seed) (keyLitLen key) (keyLitBytes key)
  | .rdcsrName name => .rdcsr (csrAddress name)
  | .rdcsrAddr addr => .rdcsr addr
  | .new n p seed => assembleCfg n p seed
  | .mightContain key => .qry (keyLitLen key) (keyLitBytes key)
  | .hash32 key seed => .hash (BitVec.ofInt 32 seed) (keyLitLen key) (keyLitBytes key)
  | .rdm => .rdcsr (csrAddress .m)
  | .rdk => .rdcsr (csrAddress .k)

/-! ## Reading a line of text (R98; log 14 names what R98 leaves open) -/

/-- The parts of a line. -/
inductive Token where
  /-- A mnemonic, a name or a number. -/
  | word (cs : List Char)
  /-- A text in double quotes. -/
  | text (cs : List Char)
  /-- A hex byte string, `x` and then its digits in double quotes. -/
  | hex (cs : List Char)
  | comma
  deriving DecidableEq, Repr

/-- Where the reader stands: outside quotes with the word read so far, or inside quotes. -/
inductive LexMode where
  | plain (w : List Char)
  | text (cs : List Char)
  | hex (cs : List Char)
  deriving DecidableEq, Repr

/-- Put the word read so far in front of the tokens after it. -/
def flushWord (w : List Char) (ts : List Token) : List Token := if w = [] then ts else .word w :: ts

/-- Cut a line into tokens; a semicolon outside quotes starts a comment (R98). -/
def lexLine : LexMode → List Char → Option (List Token)
  | .plain w, [] => some (flushWord w [])
  | .plain w, c :: cs =>
    if c = ';' then some (flushWord w [])
    else if c = ',' then (lexLine (.plain []) cs).map fun ts => flushWord w (.comma :: ts)
    else if c = ' ' ∨ c = '\t' then (lexLine (.plain []) cs).map (flushWord w)
    else if c = '"' then
      if w = [] then lexLine (.text []) cs else if w = ['x'] then lexLine (.hex []) cs else none
    else lexLine (.plain (w ++ [c])) cs
  | .text _, [] => none
  | .text a, c :: cs =>
    if c = '"' then (lexLine (.plain []) cs).map (.text a :: ·) else lexLine (.text (a ++ [c])) cs
  | .hex _, [] => none
  | .hex a, c :: cs =>
    if c = '"' then (lexLine (.plain []) cs).map (.hex a :: ·) else lexLine (.hex (a ++ [c])) cs

/-- The value of a digit, decimal or hexadecimal. -/
def digitValue (c : Char) : Option Nat :=
  let v := c.toNat
  if 48 ≤ v ∧ v ≤ 57 then some (v - 48)
  else if 65 ≤ v ∧ v ≤ 70 then some (v - 55)
  else if 97 ≤ v ∧ v ≤ 102 then some (v - 87)
  else none

/-- The number a run of digits denotes in a base; `acc` is the value of the digits before. -/
def readDigits (base : Nat) (acc : Nat) : List Char → Option Nat
  | [] => some acc
  | c :: cs =>
    match digitValue c with
    | some d => if d < base then readDigits base (acc * base + d) cs else none
    | none => none

/-- A number without sign: decimal, or hexadecimal after `0x` (R98). -/
def readNat : List Char → Option Nat
  | '0' :: 'x' :: c :: cs => readDigits 16 0 (c :: cs)
  | c :: cs => readDigits 10 0 (c :: cs)
  | [] => none

/-- A number with an optional minus sign. -/
def readInt : List Char → Option Int
  | '-' :: cs => (readNat cs).map fun v => -(v : Int)
  | cs => (readNat cs).map fun v => (v : Int)

/-- The decimal number of a run of digits with at most one point in it, and how many digits follow the point. Digits may
be missing before the point, after it, or on both sides: a lone point is 0. R99 does not say which forms a real literal
has, and this is the model's choice (DESIGN CHOICE, log 14). -/
def readDecimal (acc : Nat) (scale : Option Nat) : List Char → Option (Nat × Nat)
  | [] => some (acc, scale.getD 0)
  | c :: cs =>
    if c = '.' then
      match scale with
      | none => readDecimal acc (some 0) cs
      | some _ => none
    else
      match digitValue c with
      | some d => if d < 10 then readDecimal (acc * 10 + d) (scale.map (· + 1)) cs else none
      | none => none

/-- A literal for `p`: a 64-bit hexadecimal pattern or a decimal real literal (R99). A pattern written with fewer than 16
digits is extended by zeros on the left, a choice of the model (DESIGN CHOICE, log 14). -/
def readRate : List Char → Option RateLit
  | '0' :: 'x' :: c :: cs =>
    match readDigits 16 0 (c :: cs) with
    | some v => if v < 2 ^ 64 then some (.pattern (BitVec.ofNat 64 v)) else none
    | none => none
  | '-' :: c :: cs => (readDecimal 0 none (c :: cs)).map fun d => .decimal true d.1 d.2
  | c :: cs => (readDecimal 0 none (c :: cs)).map fun d => .decimal false d.1 d.2
  | [] => none

/-- The bytes of a hex byte string: two digits per byte, spaces optional (R98). -/
def readHexBytes : List Char → Option (List Byte)
  | [] => some []
  | ' ' :: cs => readHexBytes cs
  | h :: l :: cs =>
    match digitValue h, digitValue l, readHexBytes cs with
    | some hv, some lv, some bs => some (BitVec.ofNat 8 (16 * hv + lv) :: bs)
    | _, _, _ => none
  | [_] => none

/-- A key whose number of bytes is a `LEN` (R89, 92 D11). -/
def keyFits (key : KeyLit) : Bool := decide ((keyLitBytes key).length < 2 ^ 32)

/-- A key operand (R98); one of `2^32` bytes or more is none (DESIGN CHOICE, log 17). -/
def readKey : Token → Option KeyLit
  | .text cs => (some (.text cs)).filter keyFits
  | .hex cs => ((readHexBytes cs).map .bytes).filter keyFits
  | _ => none

/-- A register name (R98). -/
def readCsrName (cs : List Char) : Option CsrName :=
  if cs = "ID".toList then some .id
  else if cs = "STATUS".toList then some .status
  else if cs = "M".toList then some .m
  else if cs = "K".toList then some .k
  else if cs = "SEED".toList then some .seed
  else if cs = "LASTERR".toList then some .lasterr
  else if cs = "KEYMAX".toList then some .keymax
  else if cs = "MMAX".toList then some .mmax
  else none

/-- The operand of RDCSR: a name or an 8-bit address (R98). -/
def readCsr (cs : List Char) : Option AsmLine :=
  match readCsrName cs with
  | some name => some (.rdcsrName name)
  | none =>
    match readNat cs with
    | some v => if v < 256 then some (.rdcsrAddr (BitVec.ofNat 8 v)) else none
    | none => none

/-- An element count: a signed 32-bit number (R89). It may be written in hexadecimal too, also after a minus sign: R98
has `n` "signed decimal" and, below, integer literals "decimal or hexadecimal", and taking both is the model's choice
(DESIGN CHOICE, log 14). -/
def readCount (cs : List Char) : Option Int :=
  (readInt cs).bind fun v => if -(2 ^ 31) ≤ v ∧ v < 2 ^ 31 then some v else none

/-- A seed: a 32-bit pattern or a negative number that stands for one (R89, R98). -/
def readSeed (cs : List Char) : Option Int :=
  (readInt cs).bind fun v => if -(2 ^ 31) ≤ v ∧ v < 2 ^ 32 then some v else none

/-- The three operands of CFG and NEW. -/
def readCfg (mk : Int → RateLit → Int → AsmLine) (n p seed : List Char) : Option AsmLine :=
  match readCount n, readRate p, readSeed seed with
  | some n, some p, some seed => some (mk n p seed)
  | _, _, _ => none

/-- The two operands of HASH and HASH32. -/
def readHash (mk : KeyLit → Int → AsmLine) (key : Token) (seed : List Char) : Option AsmLine :=
  match readKey key, readSeed seed with
  | some key, some seed => some (mk key seed)
  | _, _ => none

/-- The command of a line's tokens (R98, R101). -/
def readTokens : List Token → Option AsmLine
  | [.word op] =>
    if op = "RDM".toList then some .rdm else if op = "RDK".toList then some .rdk else none
  | [.word op, .word a] => if op = "RDCSR".toList then readCsr a else none
  | [.word op, key] =>
    if op = "ADD".toList then (readKey key).map .add
    else if op = "QRY".toList then (readKey key).map .qry
    else if op = "MIGHTCONTAIN".toList then (readKey key).map .mightContain
    else none
  | [.word op, key, .comma, .word seed] =>
    if op = "HASH".toList then readHash .hash key seed
    else if op = "HASH32".toList then readHash .hash32 key seed
    else none
  | [.word op, .word n, .comma, .word p, .comma, .word seed] =>
    if op = "CFG".toList then readCfg .cfg n p seed
    else if op = "NEW".toList then readCfg .new n p seed
    else none
  | _ => none

/-- The words a line of text stands for: none for a line with no command; `none` where it is no line of R98. -/
def lineWords (line : List Char) : Option (List Word) :=
  match lexLine (.plain []) line with
  | some [] => some []
  | some ts => (readTokens ts).map fun l => encode (assemble l)
  | none => none

end Sys2Proof.Machine
end

