-- ==== Sys2Proof/Machine/Lane.lean ====
section
/-! DEFINITION. One hash lane as register transfers (10_state R35, 40_hash R119, 42_filter_ops R162, R166, R170). No
command leaves a lane register for a later one to observe (R36), so no lane stands in `State`: a lane starts from ANY
content, and a statement says that its result is the pure function the commands use. -/

namespace Sys2Proof.Machine

/-- The registers of one lane (R35). -/
structure Lane where
  /-- The lane's seed. -/
  sd : Word
  /-- The accumulator. -/
  h : Word
  /-- The current block word or tail word. -/
  w : Word
  /-- The key length. -/
  lenc : Word
  /-- The finished hash value. -/
  hv : Word
  /-- The bit index. -/
  idx : Word
  /-- For QRY, the bit read at `IDX`. -/
  hit : BitVec 1
  deriving DecidableEq, Repr

/-- `SD <- seed; LENC <- LEN; H <- SD` (R119); `LENC` of a byte list of `2^32` bytes or more is as in `hashLength`
(DESIGN CHOICE, log 18). -/
def laneStart (key : List Byte) (seed : Word) (l : Lane) : Lane :=
  { l with sd := seed, lenc := BitVec.ofNat 32 key.length, h := seed }

/-- `W <- KeyBlock(j); H <- Acc(H, Scr(W))` (R113, R115). -/
def laneBlock (key : List Byte) (l : Lane) (j : Nat) : Lane :=
  let l' := { l with w := keyBlock key j }
  { l' with h := acc l'.h (scr l'.w) }

/-- `W <- TailWord; H <- H xor Scr(W)`, when there is a tail (R116). -/
def laneTail (key : List Byte) (l : Lane) : Lane :=
  if key.length % 4 ≠ 0 then
    let l' := { l with w := tailWord key }
    { l' with h := l'.h ^^^ scr l'.w }
  else l

/-- `H <- H xor LENC; HV <- Fmix(H)` (R117, R118). -/
def laneFinish (l : Lane) : Lane :=
  let l' := { l with h := l.h ^^^ l.lenc }
  { l' with hv := fmix l'.h }

/-- One hash in one lane (R119). -/
def laneHash (key : List Byte) (seed : Word) (l : Lane) : Lane :=
  laneFinish (laneTail key ((List.range (key.length / 4)).foldl (laneBlock key) (laneStart key seed l)))

/-- `IDX <- abs(sint32(HV)) mod M` (R162). -/
def laneIndex (m : Word) (l : Lane) : Lane := { l with idx := BitVec.ofNat 32 (reduceIndex l.hv m) }

/-- Lane `i` of one ADD or QRY up to its index (R160). -/
def laneRun (s : State) (key : List Byte) (i : Nat) (l : Lane) : Lane :=
  laneIndex s.m (laneHash key (laneSeed s i) l)

/-- `HIT <- BitRead(IDX)` (R166). -/
def laneProbe (s : State) (l : Lane) : Lane := { l with hit := Memory.read s.bits l.idx.toNat }

/-- Rounds of at most `lanes` function numbers each (R170): `fuel` bounds how many rounds are made. -/
def laneRounds (lanes : Nat) : Nat → List Nat → List (List Nat)
  | 0, _ => []
  | _ + 1, [] => []
  | fuel + 1, i :: is => (i :: is).take lanes :: laneRounds lanes fuel ((i :: is).drop lanes)

/-- The parallel set operator: in each round every lane computes its index, then all the cells of the round are set. -/
def setRounds (s : State) (key : List Byte) (l : Lane) : List (List Nat) → Memory → Memory
  | [], mem => mem
  | r :: rs, mem =>
    setRounds s key l rs
      ((r.map fun i => (laneRun s key i l).idx.toNat).foldl (fun mem a => Memory.write mem a 1#1) mem)

/-- The parallel probe operator: every lane probes its own cell and the answer is the AND of all `HIT` (R63, R167). -/
def probeRounds (s : State) (key : List Byte) (l : Lane) (rounds : List (List Nat)) : Bool :=
  rounds.all fun r => r.all fun i => (laneProbe s (laneRun s key i l)).hit == 1#1

end Sys2Proof.Machine
end

