-- ==== Sys2Proof/Machine/Ports.lean ====
section
/-! DEFINITION. The interface (30_encoding section 1): the output signals as functions of the state, and what the host
can do between two steps. -/

namespace Sys2Proof.Machine

/-- `halted` mirrors the flag `HALTED` (R81, R212). -/
def haltedPin (s : State) : Bool := s.halted

/-- `cmd_ready`: 0 while halted (R82), while `rst = 1` (R240) and while the response buffer is full (R257, log 5). -/
def cmdReady (s : State) : Bool := !s.rst && !s.halted && rspRoom s

/-- `cmd_valid`: the host offers a word (R81). -/
def cmdValid (s : State) : Bool := !s.cmd.isEmpty

/-- `rsp_valid`: a response word is offered; 0 while `rst = 1` (R240). -/
def rspValid (s : State) : Bool := !s.rst && !s.rsp.isEmpty

/-- `rsp_data`: the oldest untaken response word. -/
def rspData (s : State) : Option Word := s.rsp.head?

/-- The host offers more command words; they come after those already offered (R80). -/
def offer (ws : List Word) (s : State) : State := { s with cmd := s.cmd ++ ws }

/-- The host takes one response word, if one is offered (R82). -/
def takeRsp (s : State) : Option (Word × State) :=
  match s.rsp with
  | [] => none
  | w :: ws => if s.rst then none else some (w, { s with rsp := ws })

/-- The host raises `rst` (R240). -/
def raiseRst (s : State) : State := { s with rst := true }

end Sys2Proof.Machine
end

