-- ==== Sys2Proof/Safety.lean ====
section
/-! DEFINITION. What a good state and a safe run of the block are, in the terms the statements use. -/

namespace Sys2Proof.Machine

/-- What the spec says of every state a run reaches: the parameters' ranges (R8, R9, R257), the sizes (R23, R24, R32),
the unconfigured block (R23, R24, R25, R31), the cells (R31), the error record (R26), the halt (R22, R206), the framing
(R40, R41). -/
structure State.Inv (s : State) : Prop where
  params : s.par.wf = true
  memory : Memory.wf s.bits = true
  cells : ∀ c ∈ s.bits, c.1 < s.m.toNat
  unconfigured : s.cfgd = false → s.m = 0#32 ∧ s.k = 0#32 ∧ s.seed = 0#32 ∧ s.bits = []
  configured : s.cfgd = true →
    1 ≤ s.m.toNat ∧ s.m.toNat ≤ s.par.mMax.toNat ∧ 1 ≤ s.k.toNat ∧ s.k.toNat ≤ 1075
  errorRecord : s.lastErr = 0#32 ∨ ∃ e opc, e ≠ Status.ok ∧ s.lastErr = statusWord e opc
  haltRecord : s.halted = true ↔ s.lastErr.extractLsb' 0 8 = Status.eIllegal.code
  haltFraming : s.halted = true → s.taken = []
  framing : ∃ owed, decode s.taken = .error (.waiting owed)
  responses : ∀ d, s.par.rspDepth = some d → s.rsp.length ≤ d

/-- The state right after reset of a block with any parameters. -/
def State.resetWith (p : Params) : State := { State.reset with par := p }

/-- `t` comes after `s` with no reset between: steps of the block, words the host offers, response words the host
takes, in any order (R33: "between a successful CFG and the next reset"). -/
inductive Evolves (s : State) : State → Prop where
  | refl : Evolves s s
  | step {t u : State} : Evolves s t → t.rst = false → Machine.step t = .next u → Evolves s u
  | offer {t : State} (ws : List Word) : Evolves s t → Evolves s (Machine.offer ws t)
  | takeRsp {t u : State} {w : Word} : Evolves s t → Machine.takeRsp t = some (w, u) → Evolves s u

/-- A state that a block with parameters `p` can reach from reset, resets included. -/
inductive Reachable (p : Params) : State → Prop where
  | reset : Reachable p (State.resetWith p)
  | step {t u : State} : Reachable p t → Machine.step t = .next u → Reachable p u
  | offer {t : State} (ws : List Word) : Reachable p t → Reachable p (Machine.offer ws t)
  | takeRsp {t u : State} {w : Word} : Reachable p t → Machine.takeRsp t = some (w, u) → Reachable p u
  | raiseRst {t : State} : Reachable p t → Reachable p (Machine.raiseRst t)

/-- The block is running: no reset, no halt, room for a response. -/
def running (s : State) : Prop := s.rst = false ∧ s.halted = false ∧ rspRoom s = true

/-- Commands one after another (R62), stopping at the first fault or refusal. -/
def runCommands : List Instr → State → Result
  | [], s => .next s
  | i :: is, s =>
    match exec i s with
    | .next t => runCommands is t
    | .fault r => .fault r
    | .refused r => .refused r

end Sys2Proof.Machine
end

