-- ==== Sys2Proof/Certificates/Slice0/Obligations.lean ====
section
/-! DEFINITION. The statements about the model, each from the rules of spec/ its docstring names. -/

namespace Sys2Proof.Statements

open Sys2Proof.Machine

/-- The `i`-th bit index of a key, written out from R161 and R162. -/
def indexOf (s : State) (key : List Byte) (i : Nat) : Nat :=
  (hash key (BitVec.ofNat 32 (s.seed.toNat + i))).toInt.natAbs % s.m.toNat

/-- `S(D)` of R165. -/
def inCells (s : State) (key : List Byte) (a : Nat) : Prop := ∃ i < s.k.toNat, a = indexOf s key i

/-- The UTF-8 bytes of a text (R100), by Lean's own encoding of a string. -/
def utf8Bytes (cs : List Char) : List Byte := (String.ofList cs).toUTF8.data.toList.map UInt8.toBitVec

/-- Byte `a` of a payload (R93). -/
def payloadByte (ws : List Word) (a : Nat) : Byte := (ws.getD (a / 4) 0#32).extractLsb' (8 * (a % 4)) 8

/-- The words of R97's legal headers. -/
def legalHeader (w : Word) : Prop :=
  w = 0x00000001#32 ∨ w = 0x00000002#32 ∨ w = 0x00000003#32 ∨ w = 0x00000004#32 ∨
    ∃ aa < 256, w = BitVec.ofNat 32 (256 * aa + 5)

/-- The hash of a key taken four bytes at a time from the front, the blocks and the tail put together by
concatenation: another way to say R119, R55, R57. -/
def hashFrom (len : Word) : List Byte → Word → Word
  | b0 :: b1 :: b2 :: b3 :: rest, h => hashFrom len rest (acc h (scr (b3 ++ b2 ++ b1 ++ b0)))
  | [b0, b1, b2], h => fmix (h ^^^ scr (0#8 ++ b2 ++ b1 ++ b0) ^^^ len)
  | [b0, b1], h => fmix (h ^^^ scr (0#16 ++ b1 ++ b0) ^^^ len)
  | [b0], h => fmix (h ^^^ scr (0#24 ++ b0) ^^^ len)
  | [], h => fmix (h ^^^ len)

end Sys2Proof.Statements

open Sys2Proof Sys2Proof.Machine Sys2Proof.Statements

/-! ## Encoding -/

/-- R85 to R93: decoding the encoding of a well-formed command, whatever follows it in the stream, gives the command
back and leaves what follows. -/
def Obligations.DecodeEncodeRoundTrip : Prop :=
  ∀ (i : Instr) (rest : List Word), i.wf = true → decode (encode i ++ rest) = .ok (i, rest)

/-- R90: the decoder takes exactly `CmdLen` words, and what it yields is a well-formed command. -/
def Obligations.DecoderTakesCmdLenWords : Prop :=
  ∀ (ws rest : List Word) (i : Instr), decode ws = .ok (i, rest) →
    i.wf = true ∧ ∃ pre, ws = pre ++ rest ∧ pre.length =
      match i with
      | .cfg _ _ _ _ => 5
      | .add len _ => 2 + (len.toNat + 3) / 4
      | .qry len _ => 2 + (len.toNat + 3) / 4
      | .hash _ len _ => 3 + (len.toNat + 3) / 4
      | .rdcsr _ => 1

/-- R97: a header is rejected as illegal exactly when it is none of the legal words, whatever operand and payload words
follow it, and a running block that meets such a header raises `E_ILLEGAL` and halts. -/
def Obligations.HeaderLegalIffTableRow : Prop :=
  (∀ (w : Word) (ws : List Word),
    (¬ ∃ e, decode (w :: ws) = .error e ∧ e.illegalHeader = some w) ↔ legalHeader w) ∧
  ∀ (s : State) (w : Word) (ws : List Word), running s → s.taken = [] → s.cmd = w :: ws → ¬ legalHeader w →
    ∃ t, step s = .next t ∧ t.halted = true ∧
      t.rsp = s.rsp ++ [0#16 ++ w.extractLsb' 0 8 ++ 0x05#8, w]

/-- R93: the key an ADD, a QRY or a HASH carries, byte by byte from its payload words. -/
def Obligations.PayloadBytePacking : Prop :=
  ∀ (len hseed : Word) (ws : List Word), (len.toNat + 3) / 4 ≤ ws.length →
    ∃ key : List Byte, key.length = len.toNat ∧ (∀ a < len.toNat, key.getD a 0#8 = payloadByte ws a) ∧
      decode (0x00000002#32 :: len :: ws) = .ok (.add len key, ws.drop ((len.toNat + 3) / 4)) ∧
      decode (0x00000003#32 :: len :: ws) = .ok (.qry len key, ws.drop ((len.toNat + 3) / 4)) ∧
      decode (0x00000004#32 :: hseed :: len :: ws) = .ok (.hash hseed len key, ws.drop ((len.toNat + 3) / 4))

/-- R94: the byte positions at and above `LEN` of the last payload word change nothing. -/
def Obligations.UnusedPayloadBytesAreIgnored : Prop :=
  ∀ (len hseed : Word) (ws ws' rest : List Word),
    ws.length = (len.toNat + 3) / 4 → ws'.length = (len.toNat + 3) / 4 →
    (∀ a < len.toNat, payloadByte ws a = payloadByte ws' a) →
    decode (0x00000002#32 :: len :: (ws ++ rest)) = decode (0x00000002#32 :: len :: (ws' ++ rest)) ∧
    decode (0x00000003#32 :: len :: (ws ++ rest)) = decode (0x00000003#32 :: len :: (ws' ++ rest)) ∧
    decode (0x00000004#32 :: hseed :: len :: (ws ++ rest)) = decode (0x00000004#32 :: hseed :: len :: (ws' ++ rest))

/-- R102: each line of the worked encodings stands for the words beside it, and those words decode to the command the
line names. -/
def Obligations.WorkedEncodingsDecode : Prop :=
  (lineWords "CFG 1000, 0.01, 42".toList = some [0x00000001#32, 0x000003E8#32, 0x47AE147B#32, 0x3F847AE1#32, 0x0000002A#32] ∧
    decode [0x00000001#32, 0x000003E8#32, 0x47AE147B#32, 0x3F847AE1#32, 0x0000002A#32] =
      .ok (.cfg 1000#32 0x47AE147B#32 0x3F847AE1#32 42#32, [])) ∧
  (lineWords "ADD \"apple\"".toList = some [0x00000002#32, 0x00000005#32, 0x6C707061#32, 0x00000065#32] ∧
    decode [0x00000002#32, 0x00000005#32, 0x6C707061#32, 0x00000065#32] =
      .ok (.add 5#32 [0x61#8, 0x70#8, 0x70#8, 0x6C#8, 0x65#8], [])) ∧
  (lineWords "QRY \"grape\"".toList = some [0x00000003#32, 0x00000005#32, 0x70617267#32, 0x00000065#32] ∧
    decode [0x00000003#32, 0x00000005#32, 0x70617267#32, 0x00000065#32] =
      .ok (.qry 5#32 [0x67#8, 0x72#8, 0x61#8, 0x70#8, 0x65#8], [])) ∧
  (lineWords "HASH x\"21 43 65 87\", 0".toList = some [0x00000004#32, 0x00000000#32, 0x00000004#32, 0x87654321#32] ∧
    decode [0x00000004#32, 0x00000000#32, 0x00000004#32, 0x87654321#32] =
      .ok (.hash 0#32 4#32 [0x21#8, 0x43#8, 0x65#8, 0x87#8], [])) ∧
  (lineWords "HASH x\"\", 1".toList = some [0x00000004#32, 0x00000001#32, 0x00000000#32] ∧
    decode [0x00000004#32, 0x00000001#32, 0x00000000#32] = .ok (.hash 1#32 0#32 [], [])) ∧
  lineWords "RDCSR K".toList = some [0x00000305#32] ∧ decode [0x00000305#32] = .ok (.rdcsr 0x03#8, [])

/-! ## The step -/

/-- R39, R40: when the words at the head of the stream decode to a command, the step is the command's meaning in the
state in which its words have been taken: no command in progress, the rest of the words still offered, `pos` advanced by
the words newly taken. -/
def Obligations.StepRunsTheDecodedCommand : Prop :=
  ∀ (s : State) (i : Instr) (rest : List Word), running s → decode (s.taken ++ s.cmd) = .ok (i, rest) →
    i.wf = true ∧
      step s = exec i { s with taken := [], cmd := rest, pos := s.pos + (s.cmd.length - rest.length) }

/-- R40: a command that runs leaves `pos` at its header's position plus `CmdLen`; the words already taken of it were
counted when they were taken. -/
def Obligations.PositionAdvancesByCmdLen : Prop :=
  ∀ (s t : State) (i : Instr) (rest : List Word), s.Inv → running s → decode (s.taken ++ s.cmd) = .ok (i, rest) →
    step s = .next t → t.pos + s.taken.length = s.pos + i.cmdLen ∧ t.cmd = rest ∧ t.taken = []

/-- R41 (a), R225: while words are owed, the step takes the words offered, changes nothing else, and is no change at all
when none is offered. That such a step answers a next state is the model's choice, log entry 2 (93 V8 calls the wait a
stuck state). -/
def Obligations.IncompleteCommandWaits : Prop :=
  ∀ (s : State) (owed : Nat), running s → decode (s.taken ++ s.cmd) = .error (.waiting owed) →
    step s = .next { s with taken := s.taken ++ s.cmd, cmd := [], pos := s.pos + s.cmd.length } ∧
      (cmdValid s = false → step s = .next s)

/-- R255: the block finds command boundaries only by counting words: when a command's words are not all there, what
the host sends later is taken as the missing words, exactly as if all had been sent at once. -/
def Obligations.FramingIgnoresHowWordsArrive : Prop :=
  ∀ (s t : State) (owed : Nat) (more : List Word), running s →
    decode (s.taken ++ s.cmd) = .error (.waiting owed) → step s = .next t →
    step (offer more t) = step (offer more s)

/-- R206: an illegal header is answered with `E_ILLEGAL` and halts the block: that one word is taken, `LASTERR` and the
response record it, everything else keeps its value; then no step follows until reset. -/
def Obligations.IllegalHeaderHaltsTheBlock : Prop :=
  ∀ (s : State) (w : Word) (ws : List Word), running s → s.taken = [] → s.cmd = w :: ws → ¬ legalHeader w →
    let t : State := { s with
      cmd := ws
      pos := s.pos + 1
      lastErr := 0#16 ++ w.extractLsb' 0 8 ++ 0x05#8
      rsp := s.rsp ++ [0#16 ++ w.extractLsb' 0 8 ++ 0x05#8, w]
      halted := true }
    step s = .next t ∧ step t = .fault .halted ∧ cmdReady t = false ∧ ∃ u, step (raiseRst t) = .next u ∧ u.halted = false

/-- R22: once `HALTED` is 1 it stays 1 until reset; no command word is taken and no response word is produced, whatever
the host does, and the registers and the bit array keep their values. -/
def Obligations.HaltStaysUntilReset : Prop :=
  ∀ s t : State, s.halted = true → Evolves s t →
    t.halted = true ∧ t.pos = s.pos ∧ t.taken = s.taken ∧ (∃ ws, t.cmd = s.cmd ++ ws) ∧ (∃ n, t.rsp = s.rsp.drop n) ∧
      t.cfgd = s.cfgd ∧ t.m = s.m ∧ t.k = s.k ∧ t.seed = s.seed ∧ t.lastErr = s.lastErr ∧ t.bits = s.bits

/-- R240, R44: with `rst = 1` every piece of state takes its reset value, from any state, halted or in the middle of a
command; no word moves. -/
def Obligations.ResetGivesTheResetValues : Prop :=
  ∀ s : State, s.rst = true → cmdReady s = false ∧ rspValid s = false ∧
    ∃ t, step s = .next t ∧ t.cfgd = false ∧ t.halted = false ∧ t.m = 0#32 ∧ t.k = 0#32 ∧ t.seed = 0#32 ∧ t.lastErr = 0#32 ∧
      t.bits = [] ∧ t.taken = [] ∧ t.pos = 0 ∧ t.rsp = [] ∧ lifecycle t = .unconfigured ∧
      csrRead 0x00#8 t = some 0x4D334246#32 ∧ csrRead 0x06#8 t = some s.par.keyMax ∧ csrRead 0x07#8 t = some s.par.mMax

/-- The reset state, whole (R44, R240, R241): both streams are emptied (92 D17, 93 V9), so the word that the host sends
next is read as a header. That reset keeps the implementation's parameters and that one step performs it and finds `rst`
low are the model's choices, log entries 4 and 6; which words count as in flight is log entry 7. -/
def Obligations.ResetEmptiesBothStreams : Prop :=
  ∀ s : State, ∃ t, step (raiseRst s) = .next t ∧ t = { State.reset with par := s.par } ∧
    ∀ ws, (offer ws t).taken ++ (offer ws t).cmd = ws

/-- R257 and log entry 5: with no room for a response the block finishes no command; the host's taking responses loses
nothing of the command stream. -/
def Obligations.FullResponseBufferHoldsTheBlock : Prop :=
  ∀ s : State, s.rst = false → s.halted = false → (∃ d, s.par.rspDepth = some d ∧ d < s.rsp.length + 2) →
    step s = .next s ∧ cmdReady s = false ∧
      ∀ w t, takeRsp s = some (w, t) → rspData s = some w ∧ s.rsp = w :: t.rsp ∧ t.cmd = s.cmd ∧ t.taken = s.taken ∧ t.pos = s.pos

/-! ## Invariants -/

/-- R44, R43: the state right after reset is good, for every legal choice of the parameters. -/
def Obligations.ResetStateIsGood : Prop :=
  State.reset.Inv ∧ ∀ p : Params, p.wf = true → (State.resetWith p).Inv

/-- R21 to R26, R31, R32, R40, R41: every step from a good state answers a good state. -/
def Obligations.StepKeepsTheInvariant : Prop :=
  ∀ s t : State, s.Inv → step s = .next t → t.Inv

/-- What the host does between two steps keeps a good state good. -/
def Obligations.HostMovesKeepTheInvariant : Prop :=
  ∀ s : State, s.Inv → (∀ ws, (offer ws s).Inv) ∧ (raiseRst s).Inv ∧ ∀ w t, takeRsp s = some (w, t) → t.Inv

/-- Every state that a block with legal parameters can reach from reset, whatever the host sends, takes or resets, is
good. -/
def Obligations.ReachableStatesAreGood : Prop :=
  ∀ (p : Params) (s : State), p.wf = true → Reachable p s → s.Inv

/-- R60, R206: from a good state a step is never refused and its only fault is the halt; in particular no access to the
bit array is out of range (log entry 9 is the fault for one). That a step of a block that waits for words answers a next
state, and that a step of a block with a full response buffer does, are the model's choices, log entries 2 and 5. -/
def Obligations.OnlyTheHaltStopsAGoodState : Prop :=
  ∀ s : State, s.Inv → (∃ t, step s = .next t) ∨ (s.halted = true ∧ s.rst = false ∧ step s = .fault .halted)

/-- R263: a command whose words have all been supplied is finished by the step that finds them, with its two response
words offered, in a block that is running in a good state. -/
def Obligations.CompleteCommandIsAnswered : Prop :=
  ∀ (s : State) (i : Instr) (rest : List Word), s.Inv → running s → decode (s.taken ++ s.cmd) = .ok (i, rest) →
    ∃ t w v, step s = .next t ∧ t.rsp = s.rsp ++ [w, v] ∧ rspValid t = true

/-- R23, R24, R25: while configured, `M`, `K` and `SEED` never change, and the block stays configured. -/
def Obligations.FilterRegistersAreImmutable : Prop :=
  ∀ s t : State, s.cfgd = true → Evolves s t → t.cfgd = true ∧ t.m = s.m ∧ t.k = s.k ∧ t.seed = s.seed

/-- R33: between a successful CFG and the next reset no cell goes from 1 to 0, so the number of set cells never
decreases. -/
def Obligations.SetCellsStaySet : Prop :=
  ∀ s t : State, s.Inv → s.cfgd = true → Evolves s t →
    (∀ a, Memory.read s.bits a = 1#1 → Memory.read t.bits a = 1#1) ∧ Memory.countSet s.bits ≤ Memory.countSet t.bits

/-- R171: no false negatives. After an ADD of a key that answered `OK`, with no reset since, a QRY of that key answers
`OK` with the value 1, whatever commands ran between. -/
def Obligations.NoFalseNegatives : Prop :=
  ∀ (s t u : State) (len : Word) (key : List Byte), s.Inv →
    exec (.add len key) s = .next t → t.rsp = s.rsp ++ [0x00000200#32, 0#32] → Evolves t u →
    exec (.qry len key) u = .next { u with rsp := u.rsp ++ [0x00000300#32, 1#32] }

/-- R43: the lifecycle transitions. Reset leads to UNCONFIGURED; a CFG answered `OK` leads from UNCONFIGURED to
CONFIGURED; an illegal header leads to HALT, `CFGD` as it was; every other step leaves the lifecycle state as it is. -/
def Obligations.LifecycleTransitions : Prop :=
  ∀ s t : State, step s = .next t →
    (s.rst = true → lifecycle t = .unconfigured) ∧
    (running s → ∀ n pLo pHi seed rest v, decode (s.taken ++ s.cmd) = .ok (.cfg n pLo pHi seed, rest) →
      t.rsp = s.rsp ++ [0x00000100#32, v] → lifecycle s = .unconfigured ∧ lifecycle t = .configured) ∧
    (running s → ∀ e w, decode (s.taken ++ s.cmd) = .error e → e.illegalHeader = some w →
      lifecycle t = .halt ∧ t.cfgd = s.cfgd) ∧
    (s.rst = false → lifecycle t ≠ lifecycle s →
      (∃ n pLo pHi seed rest v, decode (s.taken ++ s.cmd) = .ok (.cfg n pLo pHi seed, rest) ∧
        t.rsp = s.rsp ++ [0x00000100#32, v]) ∨
      ∃ e w, decode (s.taken ++ s.cmd) = .error e ∧ e.illegalHeader = some w)

/-- R191: `M`, `K`, `SEED` and `CFGD` change only through CFG, `LASTERR` only through error responses, `HALTED` only
through an illegal header, all of them through reset. -/
def Obligations.WhoWritesTheRegisters : Prop :=
  ∀ s t : State, s.rst = false → step s = .next t →
    (t.m ≠ s.m ∨ t.k ≠ s.k ∨ t.seed ≠ s.seed ∨ t.cfgd ≠ s.cfgd →
      ∃ n pLo pHi seed rest, decode (s.taken ++ s.cmd) = .ok (.cfg n pLo pHi seed, rest)) ∧
    (t.lastErr ≠ s.lastErr → ∃ w v, t.rsp = s.rsp ++ [w, v] ∧ w.extractLsb' 0 8 ≠ 0x00#8) ∧
    (t.halted ≠ s.halted → ∃ e w, decode (s.taken ++ s.cmd) = .error e ∧ e.illegalHeader = some w)

/-! ## Responses and errors -/

/-- R95, R200: a command produces exactly one response of two words, after those already there: bits [31:16] of the
first are zero, bits [15:8] are the opcode and bits [7:0] are one of the six status codes. -/
def Obligations.OneResponsePerCommand : Prop :=
  ∀ (i : Instr) (s t : State), exec i s = .next t →
    ∃ (code : Byte) (v : Word), code.toNat ≤ 5 ∧ t.rsp = s.rsp ++ [0#16 ++ i.opc ++ code, v]

/-- R26: `LASTERR` records the status code and bits [7:0] of the header of every command whose response is not `OK`, an
`OK` response leaves it, and reset clears it. -/
def Obligations.LasterrRecordsErrorResponses : Prop :=
  ∀ s t : State, step s = .next t →
    (s.rst = true → t.lastErr = 0#32) ∧
    (s.rst = false →
      (t.rsp = s.rsp ∧ t.lastErr = s.lastErr) ∨
      ∃ (code opc : Byte) (v w : Word) (ws : List Word), t.rsp = s.rsp ++ [0#16 ++ opc ++ code, v] ∧
        s.taken ++ s.cmd = w :: ws ∧ opc = w.extractLsb' 0 8 ∧
        t.lastErr = if code = 0#8 then s.lastErr else 0#16 ++ opc ++ code)

/-- R142, R149: a CFG in the configured state answers `E_STATE`; otherwise `n <= 0` answers `E_SIZING` with sub-cause 1,
and then a pattern `P` outside `1 .. 0x3FEFFFFFFFFFFFFF` answers it with sub-cause 2. Nothing but `LASTERR` and the response
changes (R148). -/
def Obligations.CfgRejectsInvalidOperands : Prop :=
  ∀ (n pLo pHi seed : Word) (s : State),
    (s.cfgd = true → exec (.cfg n pLo pHi seed) s =
      .next { s with lastErr := 0x00000102#32, rsp := s.rsp ++ [0x00000102#32, 1#32] }) ∧
    (s.cfgd = false → n.toInt ≤ 0 → exec (.cfg n pLo pHi seed) s =
      .next { s with lastErr := 0x00000101#32, rsp := s.rsp ++ [0x00000101#32, 1#32] }) ∧
    (s.cfgd = false → 0 < n.toInt →
      (pHi ++ pLo).toNat = 0 ∨ 0x3FF0000000000000 ≤ (pHi ++ pLo).toNat → exec (.cfg n pLo pHi seed) s =
      .next { s with lastErr := 0x00000101#32, rsp := s.rsp ++ [0x00000101#32, 2#32] })

/-- R146, R148: operands that pass the checks of R142 but whose size `ceil(x)` (R143) is above `M_MAX` or below 1 answer
`E_SIZING` with sub-cause 3; nothing but `LASTERR` and the response changes. (Below 1 never occurs: R145 and
`AcceptedOperandsGiveACell`.) -/
def Obligations.CfgRejectsSizesThatDoNotFit : Prop :=
  ∀ (n pLo pHi seed : Word) (s : State), s.cfgd = false → 0 < n.toInt → 0 < (pHi ++ pLo).toNat →
    (pHi ++ pLo).toNat < 0x3FF0000000000000 →
    ⌈sizeReal n.toNat (pHi ++ pLo)⌉₊ < 1 ∨ s.par.mMax.toNat < ⌈sizeReal n.toNat (pHi ++ pLo)⌉₊ →
    exec (.cfg n pLo pHi seed) s = .next { s with lastErr := 0x00000101#32, rsp := s.rsp ++ [0x00000101#32, 3#32] }

/-- R203: `E_STATE` is raised by ADD and QRY when there is no Filter and by CFG when there is one, with the value of
`STATUS`; no state but `LASTERR` changes; HASH and RDCSR never raise it. -/
def Obligations.StateErrorsByLifecycle : Prop :=
  (∀ (len : Word) (key : List Byte) (s : State), s.cfgd = false →
    exec (.add len key) s = .next { s with lastErr := 0x00000202#32, rsp := s.rsp ++ [0x00000202#32, 0#32] } ∧
    exec (.qry len key) s = .next { s with lastErr := 0x00000302#32, rsp := s.rsp ++ [0x00000302#32, 0#32] }) ∧
  (∀ (n pLo pHi seed : Word) (s : State), s.cfgd = true →
    exec (.cfg n pLo pHi seed) s = .next { s with lastErr := 0x00000102#32, rsp := s.rsp ++ [0x00000102#32, 1#32] }) ∧
  ∀ (hseed len : Word) (data : List Byte) (csra : Byte) (s t : State),
    exec (.hash hseed len data) s = .next t ∨ exec (.rdcsr csra) s = .next t →
    ∃ w v, t.rsp = s.rsp ++ [w, v] ∧ w.extractLsb' 0 8 ≠ 0x02#8

/-- R204: in a configured block an ADD or QRY of a key longer than `KEY_MAX` answers `E_KEYLEN` with its length, and so
does HASH in every block; no cell is touched. With `KEY_MAX = 2^32 - 1` no key is too long. -/
def Obligations.LongKeysAreRefused : Prop :=
  ∀ (len hseed : Word) (key : List Byte) (s : State),
    (s.par.keyMax.toNat < len.toNat →
      (s.cfgd = true →
        exec (.add len key) s = .next { s with lastErr := 0x00000203#32, rsp := s.rsp ++ [0x00000203#32, len] } ∧
        exec (.qry len key) s = .next { s with lastErr := 0x00000303#32, rsp := s.rsp ++ [0x00000303#32, len] }) ∧
      exec (.hash hseed len key) s = .next { s with lastErr := 0x00000403#32, rsp := s.rsp ++ [0x00000403#32, len] }) ∧
    (s.par.keyMax.toNat = 2 ^ 32 - 1 → len.toNat ≤ s.par.keyMax.toNat)

/-! ## CFG and the sizing function -/

/-- R147, R143, R144: a CFG in the unconfigured state whose operands pass the checks completes: with `m = ceil(x)` and
`k = max(1, floor(y + 1/2))` over the real numbers it writes `M`, `K` and `SEED`, creates the cells all 0, sets `CFGD`
and answers `OK` with `m`; nothing else changes. Neither value is truncated. -/
def Obligations.CfgConstructsTheFilter : Prop :=
  ∀ (n pLo pHi seed : Word) (s : State), s.cfgd = false → 0 < n.toInt → 0 < (pHi ++ pLo).toNat →
    (pHi ++ pLo).toNat < 0x3FF0000000000000 → ⌈sizeReal n.toNat (pHi ++ pLo)⌉₊ ≤ s.par.mMax.toNat →
    ∃ t : State, exec (.cfg n pLo pHi seed) s = .next t ∧
      t = { s with cfgd := true, m := t.m, k := t.k, seed := seed, bits := t.bits, rsp := s.rsp ++ [0x00000100#32, t.m] } ∧
      (t.m.toNat : ℤ) = ⌈sizeReal n.toNat (pHi ++ pLo)⌉ ∧
      (t.k.toNat : ℤ) = max 1 ⌊countReal n.toNat t.m.toNat + 1 / 2⌋ ∧ ∀ a, Memory.read t.bits a = 0#1

/-- R143, R141: the computed size is `ceil(x)` over the real numbers, for all accepted operands. -/
def Obligations.BitArraySizeIsExact : Prop :=
  ∀ (n : Nat) (P : BitVec 64), ValidOperands n P → (sizingM n P : ℤ) = ⌈sizeReal n P⌉

/-- The model's own method, log entry 10: the enclosure it tries first is sound and tight. It holds `ceil(x)`, it admits
at most two integers, and one alone unless `x` lies within `2^(-100)` of an integer. -/
def Obligations.FirstEnclosureIsTight : Prop :=
  ∀ (n : Nat) (P : BitVec 64), ValidOperands n P →
    (sizingMLo sizingBits n P : ℤ) ≤ ⌈sizeReal n P⌉ ∧ ⌈sizeReal n P⌉ ≤ (sizingMHi sizingBits n P : ℤ) ∧
      sizingMHi sizingBits n P ≤ sizingMLo sizingBits n P + 1 ∧
      ((∀ q : ℤ, 2 ^ (-100 : ℤ) ≤ |sizeReal n P - q|) → sizingMLo sizingBits n P = sizingMHi sizingBits n P)

/-- R144: the computed hash-function count is exactly `max(1, round(y))`, and `y` is never halfway between two integers,
for every size a CFG can compute (R145). -/
def Obligations.HashCountIsExact : Prop :=
  ∀ n m : Nat, 1 ≤ n → n < 2 ^ 31 → 1 ≤ m → m < 2 ^ 42 →
    (sizingK n m : ℤ) = max 1 ⌊countReal n m + 1 / 2⌋ ∧ ∀ q : ℤ, countReal n m ≠ q + 1 / 2

/-- R150: the named property `Sizing_exact` holds of the computed sizing: for all accepted operands `m` is the one
integer with `m - 1 < x ≤ m`, and `k` is the one integer that is 1 when `y < 3/2` and has `k - 1/2 < y < k + 1/2`
otherwise. -/
def Obligations.SizingExact : Prop :=
  ∀ (n : Nat) (P : BitVec 64), ValidOperands n P →
    (∀ m : ℤ, m = sizingM n P ↔ m - 1 < sizeReal n P ∧ sizeReal n P ≤ m) ∧
    ∀ k : ℤ, k = sizingK n (sizingM n P) ↔
      if countReal n (sizingM n P) < 3 / 2 then k = 1
      else k - 1 / 2 < countReal n (sizingM n P) ∧ countReal n (sizingM n P) < k + 1 / 2

/-- R145: the hash-function count of every accepted pair of operands is between 1 and 1075 (the size and the count as
the model computes them, log 10). -/
def Obligations.HashCountIsBounded : Prop :=
  ∀ (n : Nat) (P : BitVec 64), ValidOperands n P →
    1 ≤ sizingK n (sizingM n P) ∧ sizingK n (sizingM n P) ≤ 1075

/-- R145: every accepted pair of operands gives at least one cell, so the case `m < 1` of R146 cannot occur, and fewer
than `2^42` (the size as the model computes it, log 10). -/
def Obligations.AcceptedOperandsGiveACell : Prop :=
  ∀ (n : Nat) (P : BitVec 64), ValidOperands n P → 1 ≤ sizingM n P ∧ sizingM n P < 2 ^ 42

/-! ## ADD and QRY -/

/-- R165, R164: an ADD in a good configured state, of a key within `KEY_MAX`, completes: the cells of the key become 1,
every other cell is as before, the response is `OK` with the value 0, and nothing else changes; the key has between 1
and `K` cells. -/
def Obligations.AddSetsExactlyItsCells : Prop :=
  ∀ (len : Word) (key : List Byte) (s : State), s.Inv → s.cfgd = true → len.toNat ≤ s.par.keyMax.toNat →
    1 ≤ ((Finset.range s.k.toNat).image (indexOf s key)).card ∧
    ((Finset.range s.k.toNat).image (indexOf s key)).card ≤ s.k.toNat ∧
    ∃ t : State, exec (.add len key) s = .next t ∧
      t = { s with bits := t.bits, rsp := s.rsp ++ [0x00000200#32, 0#32] } ∧
      (∀ a, inCells s key a → Memory.read t.bits a = 1#1) ∧
      ∀ a, ¬ inCells s key a → Memory.read t.bits a = Memory.read s.bits a

/-- R166, R167: a QRY in a good configured state, of a key within `KEY_MAX`, completes: the response is `OK` with the
value 1 if every cell of the key is 1 and the value 0 otherwise, and nothing else changes; stopping at the first 0 and
probing all cells give the same answer. -/
def Obligations.QryAnswersWhetherAllCellsAreSet : Prop :=
  ∀ (len : Word) (key : List Byte) (s : State), s.Inv → s.cfgd = true → len.toNat ≤ s.par.keyMax.toNat →
    ((∀ a, inCells s key a → Memory.read s.bits a = 1#1) →
      exec (.qry len key) s = .next { s with rsp := s.rsp ++ [0x00000300#32, 1#32] }) ∧
    (¬ (∀ a, inCells s key a → Memory.read s.bits a = 1#1) →
      exec (.qry len key) s = .next { s with rsp := s.rsp ++ [0x00000300#32, 0#32] }) ∧
    probeCells s (filterIndices s key) =
      some ((filterIndices s key).all fun a => decide (Memory.read s.bits a = 1#1))

/-- R162: the index reduction, in both of the forms the rule gives. -/
def Obligations.IndexReductionForms : Prop :=
  ∀ (s : State) (key : List Byte) (i : Nat),
    let hv := hash key (s.seed + BitVec.ofNat 32 i)
    filterIndex s key i = hv.toInt.natAbs % s.m.toNat ∧
    filterIndex s key i = (if hv.toNat < 2 ^ 31 then hv.toNat else 2 ^ 32 - hv.toNat) % s.m.toNat

/-- R163: an index is inside the bit array, the value reduced is at most `2^31`, the patterns `HV` and `2^32 - HV` give the
same value, and with `M = 1` every index is 0. -/
def Obligations.IndexIsInRange : Prop :=
  (∀ (s : State) (key : List Byte) (i : Nat), 1 ≤ s.m.toNat → filterIndex s key i ≤ s.m.toNat - 1) ∧
    (∀ hv : Word, absSint hv ≤ 2 ^ 31 ∧ absSint hv = absSint (BitVec.ofNat 32 (2 ^ 32 - hv.toNat))) ∧
    ∀ hv : Word, reduceIndex hv 1#32 = 0

/-- R161: the lane seeds wrap modulo `2^32`, and those of one command are pairwise distinct. -/
def Obligations.LaneSeedsWrapAndDiffer : Prop :=
  ∀ s : State, (∀ i, (laneSeed s i).toNat = (s.seed.toNat + i) % 2 ^ 32) ∧
    (s.k.toNat ≤ 1075 → ∀ i j, i < s.k.toNat → j < s.k.toNat → i ≠ j → laneSeed s i ≠ laneSeed s j)

/-- R168: after any sequence of ADDs the set cells are those set before and those of the keys added; a sequence that adds
the same keys in another order, or some of them again, leaves the same bit array. -/
def Obligations.AddsSetTheUnion : Prop :=
  ∀ (s : State) (keys : List (Word × List Byte)), s.Inv → s.cfgd = true →
    (∀ d ∈ keys, d.1.toNat ≤ s.par.keyMax.toNat) →
    ∃ t, runCommands (keys.map fun d => Instr.add d.1 d.2) s = .next t ∧
      (∀ a, Memory.read t.bits a = 1#1 ↔ Memory.read s.bits a = 1#1 ∨ ∃ d ∈ keys, inCells s d.2 a) ∧
      ∀ keys' : List (Word × List Byte), (∀ d, d ∈ keys' ↔ d ∈ keys) →
        ∃ t', runCommands (keys'.map fun d => Instr.add d.1 d.2) s = .next t' ∧ t'.bits = t.bits

/-- R63, R170: the accesses of one ADD or QRY may be made in any order, each function number any number of times. -/
def Obligations.AccessOrderDoesNotMatter : Prop :=
  ∀ (s : State) (key : List Byte) (order : List Nat), s.Inv → s.cfgd = true →
    (∀ i, i ∈ order ↔ i < s.k.toNat) →
    setCells (order.map (filterIndex s key)) s = setCells (filterIndices s key) s ∧
      probeCells s (order.map (filterIndex s key)) = probeCells s (filterIndices s key)

/-- R170: rounds of any number of lanes, each lane beginning with any content, set the cells that ADD sets and give the
answer that QRY gives. -/
def Obligations.LanesInRoundsAgree : Prop :=
  ∀ (lanes : Nat) (l : Lane) (s : State) (len : Word) (key : List Byte), 1 ≤ lanes → s.Inv → s.cfgd = true →
    len.toNat ≤ s.par.keyMax.toNat →
    let rounds := laneRounds lanes s.k.toNat (List.range s.k.toNat)
    (∃ t, exec (.add len key) s = .next t ∧ setRounds s key l rounds s.bits = t.bits) ∧
      exec (.qry len key) s =
        .next { s with rsp := s.rsp ++ [0x00000300#32, if probeRounds s key l rounds then 1#32 else 0#32] }

/-! ## The hash core -/

/-- R120: HASH of data within `KEY_MAX` completes in every state, configured or not: it answers `OK` with the hash and
changes nothing else; longer data answers `E_KEYLEN`, its only error. -/
def Obligations.HashAnswersTheHash : Prop :=
  ∀ (hseed len : Word) (data : List Byte) (s : State),
    (len.toNat ≤ s.par.keyMax.toNat →
      exec (.hash hseed len data) s = .next { s with rsp := s.rsp ++ [0x00000400#32, hash data hseed] }) ∧
    (s.par.keyMax.toNat < len.toNat →
      exec (.hash hseed len data) s = .next { s with lastErr := 0x00000403#32, rsp := s.rsp ++ [0x00000403#32, len] })

/-- R114, R115, R118: the three stage functions, with the constants of R110 and Lean's own rotation. -/
def Obligations.StageFunctions : Prop :=
  (∀ w : Word, scr w = (w * 0xCC9E2D51#32).rotateLeft 15 * 0x1B873593#32) ∧
    (∀ h s : Word, acc h s = (h ^^^ s).rotateLeft 13 * 5#32 + 0xE6546B64#32) ∧
    ∀ h : Word, ∃ h1 h2 h3 h4, h1 = h ^^^ (h >>> 16) ∧ h2 = h1 * 0x85EBCA6B#32 ∧ h3 = h2 ^^^ (h2 >>> 13) ∧
      h4 = h3 * 0xC2B2AE35#32 ∧ fmix h = h4 ^^^ (h4 >>> 16)

/-- R55, R56: a block is its four bytes, the lowest address in the least significant position, each byte unsigned. -/
def Obligations.KeyBlocksAreLittleEndian : Prop :=
  ∀ (key : List Byte) (j : Nat),
    (keyBlock key j).toNat = (keyByte key (4 * j)).toNat + 2 ^ 8 * (keyByte key (4 * j + 1)).toNat +
      2 ^ 16 * (keyByte key (4 * j + 2)).toNat + 2 ^ 24 * (keyByte key (4 * j + 3)).toNat

/-- R57: the tail word is built from the bytes that are left and from nothing else, and the positions above them are
zero. -/
def Obligations.TailWordHoldsOnlyTheTail : Prop :=
  ∀ key : List Byte,
    (tailWord key).toNat =
      ∑ t ∈ Finset.range (key.length % 4), 2 ^ (8 * t) * (key.getD (4 * (key.length / 4) + t) 0#8).toNat ∧
    (tailWord key).toNat < 2 ^ (8 * (key.length % 4))

/-- R119: the hash, computed from the front of the key four bytes at a time. For a list of `2^32` bytes or more, which no
command carries, that the length enters by its low 32 bits is the model's choice, log entry 18. -/
def Obligations.HashByConsumingTheKey : Prop :=
  ∀ (key : List Byte) (seed : Word), hash key seed = hashFrom (BitVec.ofNat 32 key.length) key seed

/-- R121: the hash of the empty input is the finalizer of the seed, with the rule's three values. -/
def Obligations.EmptyInputHash : Prop :=
  (∀ seed : Word, hash [] seed = fmix seed) ∧ hash [] 0#32 = 0#32 ∧ hash [] 1#32 = 0x514E28B7#32 ∧ hash [] 0xFFFFFFFF#32 = 0x81F16F39#32

/-- R36, R119: one lane, begun with any content of its registers, leaves in `HV` the hash and in `IDX` the index: no
register is read before it is written. -/
def Obligations.LaneContentBeforeDoesNotMatter : Prop :=
  ∀ (l l' : Lane) (s : State) (key : List Byte) (seed : Word) (i : Nat), s.Inv → s.cfgd = true →
    (laneHash key seed l).hv = hash key seed ∧ (laneRun s key i l).idx.toNat = filterIndex s key i ∧
      (laneProbe s (laneRun s key i l)).hit = (laneProbe s (laneRun s key i l')).hit

/-- R123: two HASH commands with equal operands get equal answers, whatever ran between them, with no reset. -/
def Obligations.HashIsDeterministic : Prop :=
  ∀ (s t s' t' : State) (hseed len : Word) (data : List Byte), exec (.hash hseed len data) s = .next s' →
    Evolves s' t → exec (.hash hseed len data) t = .next t' →
    ∃ w v, s'.rsp = s.rsp ++ [w, v] ∧ t'.rsp = t.rsp ++ [w, v]

/-! ## RDCSR -/

/-- R190, R205: RDCSR of a mapped register completes in every state: it answers `OK` with the register's value and
changes nothing else; an unmapped address answers `E_CSR` with the address. -/
def Obligations.RdcsrReadsTheMap : Prop :=
  ∀ (csra : Byte) (s : State),
    (csra.toNat ≤ 0x07 →
      exec (.rdcsr csra) s = .next { s with rsp := s.rsp ++ [0x00000500#32,
        match csra.toNat with
        | 0 => 0x4D334246#32
        | 1 => if s.cfgd then 1#32 else 0#32
        | 2 => s.m
        | 3 => s.k
        | 4 => s.seed
        | 5 => s.lastErr
        | 6 => s.par.keyMax
        | _ => s.par.mMax] }) ∧
    (0x07 < csra.toNat →
      exec (.rdcsr csra) s =
        .next { s with lastErr := 0x00000504#32, rsp := s.rsp ++ [0x00000504#32, BitVec.ofNat 32 csra.toNat] })

/-! ## Text notation -/

/-- R98, R101: the command of each row of the notation and of each pseudo-instruction. A key stands for its bytes, `LEN`
for how many there are (their number's low 32 bits for `2^32` bytes or more, the model's choice, log entry 17), a negative
number for its pattern, `P_LO` and `P_HI` for the halves of the pattern. -/
def Obligations.AssembledLinesAreCommands : Prop :=
  (∀ (n seed : Int) (P : BitVec 64),
    let c := Instr.cfg (BitVec.ofInt 32 n) (BitVec.ofNat 32 (P.toNat % 2 ^ 32)) (BitVec.ofNat 32 (P.toNat / 2 ^ 32))
      (BitVec.ofInt 32 seed)
    assemble (.cfg n (.pattern P) seed) = c ∧ assemble (.new n (.pattern P) seed) = c ∧
      ∀ p, rateLitPattern p = P → assemble (.cfg n p seed) = c ∧ assemble (.new n p seed) = c) ∧
  (∀ (key : KeyLit) (bs : List Byte) (seed : Int), key = .bytes bs ∨ (∃ cs, key = .text cs ∧ bs = utf8Bytes cs) →
    assemble (.add key) = .add (BitVec.ofNat 32 bs.length) bs ∧
    assemble (.qry key) = .qry (BitVec.ofNat 32 bs.length) bs ∧
    assemble (.mightContain key) = .qry (BitVec.ofNat 32 bs.length) bs ∧
    assemble (.hash key seed) = .hash (BitVec.ofInt 32 seed) (BitVec.ofNat 32 bs.length) bs ∧
    assemble (.hash32 key seed) = .hash (BitVec.ofInt 32 seed) (BitVec.ofNat 32 bs.length) bs ∧
    (bs.length < 2 ^ 32 → (assemble (.add key)).wf = true ∧ (assemble (.qry key)).wf = true ∧
      (assemble (.hash key seed)).wf = true)) ∧
  (∀ a : Byte, assemble (.rdcsrAddr a) = .rdcsr a) ∧
  assemble (.rdcsrName .id) = .rdcsr 0x00#8 ∧ assemble (.rdcsrName .status) = .rdcsr 0x01#8 ∧
  assemble (.rdcsrName .m) = .rdcsr 0x02#8 ∧ assemble (.rdcsrName .k) = .rdcsr 0x03#8 ∧
  assemble (.rdcsrName .seed) = .rdcsr 0x04#8 ∧ assemble (.rdcsrName .lasterr) = .rdcsr 0x05#8 ∧
  assemble (.rdcsrName .keymax) = .rdcsr 0x06#8 ∧ assemble (.rdcsrName .mmax) = .rdcsr 0x07#8 ∧
  assemble .rdm = .rdcsr 0x02#8 ∧ assemble .rdk = .rdcsr 0x03#8

/-- R98, R101: lines of text with the pseudo-instructions, the register names, a negative number and a comment, each with
the words it stands for. That a line with a comment only stands for no words is the model's choice, log entry 14. -/
def Obligations.TextLinesAreCommandWords : Prop :=
  lineWords "NEW 1000, 0.01, 42".toList = some [0x00000001#32, 0x000003E8#32, 0x47AE147B#32, 0x3F847AE1#32, 0x0000002A#32] ∧
  lineWords "CFG -5, 0x0000000000000001, -1".toList = some [0x00000001#32, 0xFFFFFFFB#32, 1#32, 0#32, 0xFFFFFFFF#32] ∧
  lineWords "MIGHTCONTAIN \"grape\"".toList = some [0x00000003#32, 0x00000005#32, 0x70617267#32, 0x00000065#32] ∧
  lineWords "HASH32 x\"21436587\", 0x5082EDEE".toList = some [0x00000004#32, 0x5082EDEE#32, 0x00000004#32, 0x87654321#32] ∧
  lineWords "RDM".toList = some [0x00000205#32] ∧ lineWords "RDK ; comment".toList = some [0x00000305#32] ∧
  lineWords "RDCSR ID".toList = some [0x00000005#32] ∧ lineWords "RDCSR STATUS".toList = some [0x00000105#32] ∧
  lineWords "RDCSR M".toList = some [0x00000205#32] ∧ lineWords "RDCSR SEED".toList = some [0x00000405#32] ∧
  lineWords "RDCSR LASTERR".toList = some [0x00000505#32] ∧ lineWords "RDCSR KEYMAX".toList = some [0x00000605#32] ∧
  lineWords "RDCSR MMAX".toList = some [0x00000705#32] ∧ lineWords "RDCSR 0xFF".toList = some [0x0000FF05#32] ∧
  lineWords "; no command".toList = some []

/-- R100: a text key of ASCII characters is one byte per character, its code. -/
def Obligations.AsciiTextKeys : Prop :=
  ∀ cs : List Char, (∀ c ∈ cs, c.toNat < 128) →
    keyLitBytes (.text cs) = cs.map fun c => BitVec.ofNat 8 c.toNat
end

