-- ==== Sys2Proof/Laws/Assembler.lean ====
section
/-! SUPPORT. A key read from text has a `LEN` (92 D11), so the commands of a keyed line are well-formed. -/

namespace Sys2Proof.Laws

open Sys2Proof.Machine

theorem keyFits_iff (key : KeyLit) : keyFits key = true ↔ (keyLitBytes key).length < 2 ^ 32 := by simp [keyFits]

/-- Every key that `readKey` answers fits. -/
theorem readKey_fits {t : Token} {key : KeyLit} (h : readKey t = some key) : keyFits key = true := by
  unfold readKey at h
  split at h
  · exact (Option.filter_eq_some_iff.1 h).2
  · exact (Option.filter_eq_some_iff.1 h).2
  · cases h

/-- `LEN` of a key that fits is the number of its bytes. -/
theorem keyLitLen_toNat {key : KeyLit} (h : keyFits key = true) : (keyLitLen key).toNat = (keyLitBytes key).length := by
  rw [keyLitLen, BitVec.toNat_ofNat, Nat.mod_eq_of_lt ((keyFits_iff key).1 h)]

end Sys2Proof.Laws
end

