-- ==== Sys2Proof/Laws/Decode.lean ====
section
/-! SUPPORT. The laws of payload packing and of the decoder's parts. -/

namespace Sys2Proof.Laws

@[simp] theorem opcOf_header (arg opc : Byte) : opcOf (header arg opc) = opc := by
  ext i hi
  simp only [opcOf, header, BitVec.getElem_extractLsb', Nat.zero_add]
  rw [BitVec.getLsbD_append]
  simp [hi]

@[simp] theorem argOf_header (arg opc : Byte) : argOf (header arg opc) = arg := by
  ext i hi
  simp only [argOf, header, BitVec.getElem_extractLsb']
  rw [BitVec.getLsbD_append, BitVec.getLsbD_append]
  simp [hi]

@[simp] theorem rsvOf_header (arg opc : Byte) : rsvOf (header arg opc) = 0#16 := by
  ext i hi
  simp only [rsvOf, header, BitVec.getElem_extractLsb']
  rw [BitVec.getLsbD_append, BitVec.getLsbD_append]
  have h1 : ¬ 16 + i < 8 := by omega
  have h2 : ¬ 16 + i - 8 < 8 := by omega
  simp [h1, h2]

/-- The bytes of a packed word are the bytes packed (R93). -/
@[simp] theorem wordBytes_packWord (b0 b1 b2 b3 : Byte) : wordBytes (packWord b0 b1 b2 b3) = [b0, b1, b2, b3] := by
  have h (p : Nat) (b : Byte) (hp : ∀ i, i < 8 → (packWord b0 b1 b2 b3).getLsbD (p + i) = b.getLsbD i) :
      (packWord b0 b1 b2 b3).extractLsb' p 8 = b := by
    ext i hi
    rw [BitVec.getElem_extractLsb', hp i hi, BitVec.getLsbD_eq_getElem hi]
  simp only [wordBytes, List.cons.injEq, and_true]
  refine ⟨h 0 b0 fun i hi => ?_, h 8 b1 fun i hi => ?_, h 16 b2 fun i hi => ?_, h 24 b3 fun i hi => ?_⟩ <;>
    simp only [packWord, BitVec.getLsbD_append]
  · simp [hi]
  · simp [hi]
  · have h1 : ¬ 16 + i < 8 := by omega
    have h2 : ¬ 16 + i - 8 < 8 := by omega
    have h3 : 16 + i - 8 - 8 = i := by omega
    simp [h1, h2, h3, hi]
  · have h1 : ¬ 24 + i < 8 := by omega
    have h2 : ¬ 24 + i - 8 < 8 := by omega
    have h3 : ¬ 24 + i - 8 - 8 < 8 := by omega
    have h4 : 24 + i - 8 - 8 - 8 = i := by omega
    simp [h1, h2, h3, h4]

theorem length_packBytes (key : List Byte) : (packBytes key).length = payloadWords key.length := by
  fun_induction packBytes key with
  | case5 b0 b1 b2 b3 rest ih => simp only [List.length_cons, ih, payloadWords]; omega
  | _ => simp [payloadWords]

/-- Unpacking the packed bytes gives the key back (R93). -/
theorem unpack_pack (key : List Byte) : ((packBytes key).flatMap wordBytes).take key.length = key := by
  fun_induction packBytes key with
  | case5 b0 b1 b2 b3 rest ih => simpa using ih
  | _ => simp

/-- What `TakePayload` yields when enough words are there, and that it is all (R91, R93). -/
theorem takePayload_ok {len : Word} {ws rest : List Word} {key : List Byte} (h : takePayload len ws = .ok (key, rest)) :
    payloadWords len.toNat ≤ ws.length ∧ rest = ws.drop (payloadWords len.toNat) ∧
      key = ((ws.take (payloadWords len.toNat)).flatMap wordBytes).take len.toNat := by
  unfold takePayload at h
  split at h
  · rename_i hle
    simp only [Except.ok.injEq, Prod.mk.injEq] at h
    exact ⟨hle, h.2.symm, h.1.symm⟩
  · cases h

/-- `TakePayload` waits only for the payload words that are missing. -/
theorem takePayload_error {len : Word} {ws : List Word} {e : Reject} (h : takePayload len ws = .error e) :
    ws.length < payloadWords len.toNat ∧ e = .waiting (payloadWords len.toNat - ws.length) := by
  unfold takePayload at h
  split at h
  · cases h
  · rename_i hlt
    exact ⟨by omega, (Except.error.inj h).symm⟩

theorem length_flatMap_wordBytes (ws : List Word) : (ws.flatMap wordBytes).length = 4 * ws.length := by
  induction ws with
  | nil => rfl
  | cons w ws ih => simp only [List.flatMap_cons, List.length_append, ih, List.length_cons]; simp [wordBytes]; omega

/-- The key taken has exactly `LEN` bytes (R92). -/
theorem takePayload_length {len : Word} {ws rest : List Word} {key : List Byte}
    (h : takePayload len ws = .ok (key, rest)) : key.length = len.toNat := by
  obtain ⟨hle, -, rfl⟩ := takePayload_ok h
  rw [List.length_take, length_flatMap_wordBytes, List.length_take, Nat.min_eq_left hle]
  simp only [payloadWords]
  omega

/-- Taking the payload of an encoded key gives the key and the words after it. -/
theorem takePayload_pack {len : Word} {key : List Byte} (h : key.length = len.toNat) (rest : List Word) :
    takePayload len (packBytes key ++ rest) = .ok (key, rest) := by
  have hl : (packBytes key).length = payloadWords len.toNat := by rw [length_packBytes, h]
  unfold takePayload
  rw [if_pos (by simp [hl]), ← hl, List.take_left, List.drop_left, ← h, unpack_pack]

/-- The payload words alone decide the key, whatever follows them (R255). -/
theorem takePayload_prefix {len : Word} {ws rest : List Word} {key : List Byte}
    (h : takePayload len ws = .ok (key, rest)) (more : List Word) :
    takePayload len (ws.take (payloadWords len.toNat) ++ more) = .ok (key, more) := by
  obtain ⟨hle, rfl, rfl⟩ := takePayload_ok h
  have hl : (ws.take (payloadWords len.toNat)).length = payloadWords len.toNat := List.length_take_of_le hle
  unfold takePayload
  rw [if_pos (by rw [List.length_append]; omega), List.take_left' hl, List.drop_left' hl]

/-- A command is decoded from its own words `pre` alone: it is well-formed, `pre` has its length, and the words after
them are left over, whatever they are (R90, R91). -/
abbrev DecodedFrom (ws rest : List Word) (i : Instr) : Prop :=
  i.wf = true ∧ ∃ pre, ws = pre ++ rest ∧ pre.length = i.cmdLen ∧ ∀ more, decode (pre ++ more) = .ok (i, more)

theorem decodeC_ok {w : Word} {ws rest : List Word} {i : Instr} (hr : rsvOf w = 0#16) (ho : opcOf w = 1#8)
    (ha : argOf w = 0#8) (h : decodeC ws = .ok (i, rest)) : DecodedFrom (w :: ws) rest i := by
  unfold decodeC at h
  split at h
  · rename_i n pLo pHi seed rest'
    obtain ⟨rfl, rfl⟩ : Instr.cfg n pLo pHi seed = i ∧ rest' = rest := by simpa using h
    exact ⟨rfl, [w, n, pLo, pHi, seed], rfl, rfl, fun more => by simp [decode, hr, ho, ha, decodeC]⟩
  · cases h

/-- The common part of ADD, QRY and HASH: a fixed front `pre` of the command, then `LEN` in it, then the payload. -/
theorem payload_ok {pre ws rest : List Word} {len : Word} {key : List Byte} {i : Instr}
    (hp : takePayload len ws = .ok (key, rest)) (hw : (key.length == len.toNat) = i.wf)
    (hl : pre.length + payloadWords len.toNat = i.cmdLen)
    (hd : ∀ ws' more, takePayload len ws' = .ok (key, more) → decode (pre ++ ws') = .ok (i, more)) :
    DecodedFrom (pre ++ ws) rest i := by
  obtain ⟨hle, hrest, -⟩ := takePayload_ok hp
  refine ⟨by rw [← hw]; simpa using takePayload_length hp, pre ++ ws.take (payloadWords len.toNat), ?_, ?_, fun more => ?_⟩
  · rw [hrest, List.append_assoc, List.take_append_drop]
  · rw [List.length_append, List.length_take_of_le hle, hl]
  · rw [List.append_assoc]
    exact hd _ _ (takePayload_prefix hp more)

/-- What the decoder does when it answers a command. -/
theorem decode_ok {ws rest : List Word} {i : Instr} (h : decode ws = .ok (i, rest)) : DecodedFrom ws rest i := by
  cases ws with
  | nil => cases h
  | cons w ws =>
    rw [decode] at h
    split_ifs at h with hr h1 ha h2 ha h3 ha h4 ha h5
    · exact decodeC_ok (by simpa using hr) h1 (by simpa using ha) h
    · cases ws with
      | nil => cases h
      | cons len ws =>
        rw [decodeK] at h
        split at h
        · rename_i key rest' hp
          obtain ⟨rfl, rfl⟩ : Instr.add len key = i ∧ rest' = rest := by simpa using h
          exact payload_ok (pre := [w, len]) hp rfl (by simp [Instr.cmdLen]) fun ws' more hp' => by
            simp_all [decode, decodeK]
        · cases h
    · cases ws with
      | nil => cases h
      | cons len ws =>
        rw [decodeK] at h
        split at h
        · rename_i key rest' hp
          obtain ⟨rfl, rfl⟩ : Instr.qry len key = i ∧ rest' = rest := by simpa using h
          exact payload_ok (pre := [w, len]) hp rfl (by simp [Instr.cmdLen]) fun ws' more hp' => by
            simp_all [decode, decodeK]
        · cases h
    · unfold decodeH at h
      split at h
      · rename_i hseed len ws'
        split at h
        · rename_i data rest' hp
          obtain ⟨rfl, rfl⟩ : Instr.hash hseed len data = i ∧ rest' = rest := by simpa using h
          exact payload_ok (pre := [w, hseed, len]) hp rfl (by simp [Instr.cmdLen]) fun ws'' more hp' => by
            simp_all [decode, decodeH]
        · cases h
      · cases h
    · obtain ⟨rfl, rfl⟩ : Instr.rdcsr (argOf w) = i ∧ ws = rest := by simpa using h
      exact ⟨rfl, [w], rfl, rfl, fun more => by simp_all [decode]⟩

/-- A command that is whole stays the same when more words follow (R255). -/
theorem decode_append {ws rest : List Word} {i : Instr} (h : decode ws = .ok (i, rest)) (more : List Word) :
    decode (ws ++ more) = .ok (i, rest ++ more) := by
  obtain ⟨-, pre, rfl, -, hd⟩ := decode_ok h
  rw [List.append_assoc, hd]

/-- When the words at hand are not yet a whole command, what is left after the command comes from the words that
arrived later. -/
theorem rest_suffix {ws more rest : List Word} {i : Instr} {e : Reject} (h : decode ws = .error e)
    (h' : decode (ws ++ more) = .ok (i, rest)) : ∃ pre, more = pre ++ rest := by
  obtain ⟨-, pre, hpre, -, hd⟩ := decode_ok h'
  rcases List.append_eq_append_iff.1 hpre with ⟨as, -, hmore⟩ | ⟨bs, hws, -⟩
  · exact ⟨as, hmore⟩
  · rw [hws, hd bs] at h
    cases h

end Sys2Proof.Laws
end

