-- ==== Sys2Proof/Laws/Memory.lean ====
section
/-! SUPPORT. The laws of the `BIT` space as a list of cells: read after write, the canonical form, and that canonical
memories with equal reads are equal. -/

namespace Sys2Proof.Laws

open Sys2Proof.Machine

theorem bit_eq_one_of_ne_zero {v : BitVec 1} (h : v ≠ 0#1) : v = 1#1 := by
  revert h; revert v; decide

@[simp] theorem read_nil (a : Nat) : Memory.read [] a = 0#1 := rfl

theorem read_cons (b : Nat) (v : BitVec 1) (t : Memory) (a : Nat) :
    Memory.read ((b, v) :: t) a = if a = b then v else Memory.read t a := rfl

theorem wfFrom_cons {lo a : Nat} {v : BitVec 1} {t : Memory} :
    Memory.wfFrom lo ((a, v) :: t) = true ↔ lo ≤ a ∧ v ≠ 0#1 ∧ Memory.wfFrom (a + 1) t = true := by
  simp [Memory.wfFrom, and_assoc]

theorem wfFrom_mono {lo hi : Nat} {mem : Memory} (hle : lo ≤ hi) (h : Memory.wfFrom hi mem = true) :
    Memory.wfFrom lo mem = true := by
  cases mem with
  | nil => rfl
  | cons c t =>
    obtain ⟨a, v⟩ := c
    rw [wfFrom_cons] at h ⊢
    exact ⟨hle.trans h.1, h.2⟩

/-- Below its first address a canonical memory reads 0. -/
theorem read_below {lo a : Nat} {mem : Memory} (h : Memory.wfFrom lo mem = true) (ha : a < lo) :
    Memory.read mem a = 0#1 := by
  induction mem generalizing lo with
  | nil => rfl
  | cons c t ih =>
    obtain ⟨b, v⟩ := c
    rw [wfFrom_cons] at h
    rw [read_cons, if_neg (by omega)]
    exact ih h.2.2 (by omega)

theorem put_wf {lo a : Nat} {v : BitVec 1} {t : Memory} (hlo : lo ≤ a) (h : Memory.wfFrom (a + 1) t = true) :
    Memory.wfFrom lo (Memory.put a v t) = true := by
  unfold Memory.put
  split
  · exact wfFrom_mono (by omega) h
  · rename_i hv
    exact wfFrom_cons.2 ⟨hlo, hv, h⟩

theorem put_read {a : Nat} {v : BitVec 1} {t : Memory} (h : Memory.wfFrom (a + 1) t = true) (x : Nat) :
    Memory.read (Memory.put a v t) x = if x = a then v else Memory.read t x := by
  unfold Memory.put
  split
  · rename_i hv
    split
    · rename_i hx
      rw [hv, hx, read_below h (by omega)]
    · rfl
  · rfl

theorem write_wfFrom {lo a : Nat} {v : BitVec 1} {mem : Memory} (h : Memory.wfFrom lo mem = true) (hlo : lo ≤ a) :
    Memory.wfFrom lo (Memory.write mem a v) = true := by
  induction mem generalizing lo with
  | nil => exact put_wf hlo rfl
  | cons c t ih =>
    obtain ⟨b, u⟩ := c
    rw [wfFrom_cons] at h
    simp only [Memory.write]
    split
    · exact put_wf hlo (wfFrom_cons.2 ⟨by omega, h.2⟩)
    · split
      · rename_i hab
        exact put_wf hlo (hab ▸ h.2.2)
      · exact wfFrom_cons.2 ⟨h.1, h.2.1, ih h.2.2 (by omega)⟩

/-- A write keeps the canonical form. -/
theorem write_wf {mem : Memory} (h : Memory.wf mem = true) (a : Nat) (v : BitVec 1) :
    Memory.wf (Memory.write mem a v) = true := write_wfFrom h (Nat.zero_le a)

theorem write_readFrom {lo a : Nat} {v : BitVec 1} {mem : Memory} (h : Memory.wfFrom lo mem = true) (x : Nat) :
    Memory.read (Memory.write mem a v) x = if x = a then v else Memory.read mem x := by
  induction mem generalizing lo with
  | nil => exact put_read rfl x
  | cons c t ih =>
    obtain ⟨b, u⟩ := c
    rw [wfFrom_cons] at h
    simp only [Memory.write]
    split
    · exact put_read (wfFrom_cons.2 ⟨by omega, h.2⟩) x
    · split
      · rename_i hab
        subst hab
        rw [put_read h.2.2, read_cons]
        split <;> rfl
      · rw [read_cons, ih h.2.2, read_cons]
        split
        · rw [if_neg (by omega)]
        · rfl

/-- Reading after a write: the cell written holds the value, every other cell is as before. -/
theorem write_read {mem : Memory} (h : Memory.wf mem = true) (a : Nat) (v : BitVec 1) (x : Nat) :
    Memory.read (Memory.write mem a v) x = if x = a then v else Memory.read mem x := write_readFrom h x

/-- The list of cells to set, one write after the other. -/
abbrev setList (mem : Memory) (as : List Nat) : Memory := as.foldl (fun mem a => Memory.write mem a 1#1) mem

theorem setList_wf {mem : Memory} (h : Memory.wf mem = true) (as : List Nat) : Memory.wf (setList mem as) = true := by
  induction as generalizing mem with
  | nil => exact h
  | cons a as ih => exact ih (write_wf h a 1#1)

/-- Setting a list of cells: a cell reads 1 if it is in the list, and as before otherwise. -/
theorem setList_read {mem : Memory} (h : Memory.wf mem = true) (as : List Nat) (x : Nat) :
    Memory.read (setList mem as) x = if x ∈ as then 1#1 else Memory.read mem x := by
  induction as generalizing mem with
  | nil => simp
  | cons a as ih =>
    rw [show setList mem (a :: as) = setList (Memory.write mem a 1#1) as from rfl, ih (write_wf h a 1#1), write_read h]
    by_cases h1 : x ∈ as <;> by_cases h2 : x = a <;> simp [h1, h2]

/-- A listed cell of a canonical memory reads 1, and a cell that reads 1 is listed. -/
theorem mem_iff_readFrom {lo : Nat} {mem : Memory} (h : Memory.wfFrom lo mem = true) (a : Nat) :
    (a, 1#1) ∈ mem ↔ Memory.read mem a = 1#1 := by
  induction mem generalizing lo with
  | nil => simp
  | cons c t ih =>
    obtain ⟨b, u⟩ := c
    rw [wfFrom_cons] at h
    have hu := bit_eq_one_of_ne_zero h.2.1
    rw [read_cons, List.mem_cons, ih h.2.2, hu]
    by_cases hab : a = b
    · simp [hab]
    · simp [hab]

theorem mem_iff_read {mem : Memory} (h : Memory.wf mem = true) (a : Nat) :
    (a, 1#1) ∈ mem ↔ Memory.read mem a = 1#1 := mem_iff_readFrom h a

theorem snd_eq_one {lo : Nat} {mem : Memory} (h : Memory.wfFrom lo mem = true) {c : Nat × BitVec 1} (hc : c ∈ mem) :
    c.2 = 1#1 := by
  induction mem generalizing lo with
  | nil => cases hc
  | cons d t ih =>
    obtain ⟨b, u⟩ := d
    rw [wfFrom_cons] at h
    rcases List.mem_cons.1 hc with rfl | hc
    · exact bit_eq_one_of_ne_zero h.2.1
    · exact ih h.2.2 hc

theorem ext_of_readFrom {lo hi : Nat} {mem mem' : Memory} (h : Memory.wfFrom lo mem = true)
    (h' : Memory.wfFrom hi mem' = true) (heq : ∀ x, Memory.read mem x = Memory.read mem' x) : mem = mem' := by
  induction mem generalizing lo hi mem' with
  | nil =>
    cases mem' with
    | nil => rfl
    | cons c t =>
      obtain ⟨b, u⟩ := c
      rw [wfFrom_cons] at h'
      have := heq b
      simp only [read_nil, read_cons, if_true] at this
      exact absurd this.symm h'.2.1
  | cons c t ih =>
    obtain ⟨b, u⟩ := c
    rw [wfFrom_cons] at h
    cases mem' with
    | nil =>
      have := heq b
      simp only [read_nil, read_cons, if_true] at this
      exact absurd this h.2.1
    | cons c' t' =>
      obtain ⟨b', u'⟩ := c'
      rw [wfFrom_cons] at h'
      have hu := bit_eq_one_of_ne_zero h.2.1
      have hu' := bit_eq_one_of_ne_zero h'.2.1
      have hbb : b = b' := by
        rcases Nat.lt_trichotomy b b' with hlt | rfl | hlt
        · have := heq b
          rw [read_cons, if_pos rfl, read_cons, if_neg (by omega), read_below h'.2.2 (by omega)] at this
          exact absurd this h.2.1
        · rfl
        · have := heq b'
          rw [read_cons, if_neg (by omega), read_below h.2.2 (by omega), read_cons, if_pos rfl] at this
          exact absurd this.symm h'.2.1
      subst hbb
      rw [hu, hu', ih h.2.2 h'.2.2 fun x => ?_]
      by_cases hx : x = b
      · subst hx
        rw [read_below h.2.2 (by omega), read_below h'.2.2 (by omega)]
      · simpa [read_cons, hx] using heq x

/-- Canonical memories that read alike are equal. -/
theorem ext_of_read {mem mem' : Memory} (h : Memory.wf mem = true) (h' : Memory.wf mem' = true)
    (heq : ∀ x, Memory.read mem x = Memory.read mem' x) : mem = mem' := ext_of_readFrom h h' heq

/-- The pseudocode of CFG clears cell after cell (R140); the created space, with no cell listed, is what that leaves. -/
theorem clear_created (as : List Nat) : as.foldl (fun mem a => Memory.write mem a 0#1) ([] : Memory) = [] := by
  induction as with
  | nil => rfl
  | cons a as ih => simpa [Memory.write, Memory.put] using ih

end Sys2Proof.Laws
end

