-- ==== Sys2Proof/Laws/State.lean ====
section
/-! SUPPORT. One lemma per field of `State` per shared update, so that no proof unfolds a record update. -/

namespace Sys2Proof.Laws

open Sys2Proof.Machine

/-! ## `setHalted` -/

@[simp] theorem setHalted_par (s : State) : (setHalted s).par = s.par := rfl
@[simp] theorem setHalted_cfgd (s : State) : (setHalted s).cfgd = s.cfgd := rfl
@[simp] theorem setHalted_halted (s : State) : (setHalted s).halted = true := rfl
@[simp] theorem setHalted_m (s : State) : (setHalted s).m = s.m := rfl
@[simp] theorem setHalted_k (s : State) : (setHalted s).k = s.k := rfl
@[simp] theorem setHalted_seed (s : State) : (setHalted s).seed = s.seed := rfl
@[simp] theorem setHalted_lastErr (s : State) : (setHalted s).lastErr = s.lastErr := rfl
@[simp] theorem setHalted_bits (s : State) : (setHalted s).bits = s.bits := rfl
@[simp] theorem setHalted_taken (s : State) : (setHalted s).taken = s.taken := rfl
@[simp] theorem setHalted_pos (s : State) : (setHalted s).pos = s.pos := rfl
@[simp] theorem setHalted_cmd (s : State) : (setHalted s).cmd = s.cmd := rfl
@[simp] theorem setHalted_rsp (s : State) : (setHalted s).rsp = s.rsp := rfl
@[simp] theorem setHalted_rst (s : State) : (setHalted s).rst = s.rst := rfl

/-! ## `rspPut` -/

@[simp] theorem rspPut_par (w : Word) (s : State) : (rspPut w s).par = s.par := rfl
@[simp] theorem rspPut_cfgd (w : Word) (s : State) : (rspPut w s).cfgd = s.cfgd := rfl
@[simp] theorem rspPut_halted (w : Word) (s : State) : (rspPut w s).halted = s.halted := rfl
@[simp] theorem rspPut_m (w : Word) (s : State) : (rspPut w s).m = s.m := rfl
@[simp] theorem rspPut_k (w : Word) (s : State) : (rspPut w s).k = s.k := rfl
@[simp] theorem rspPut_seed (w : Word) (s : State) : (rspPut w s).seed = s.seed := rfl
@[simp] theorem rspPut_lastErr (w : Word) (s : State) : (rspPut w s).lastErr = s.lastErr := rfl
@[simp] theorem rspPut_bits (w : Word) (s : State) : (rspPut w s).bits = s.bits := rfl
@[simp] theorem rspPut_taken (w : Word) (s : State) : (rspPut w s).taken = s.taken := rfl
@[simp] theorem rspPut_pos (w : Word) (s : State) : (rspPut w s).pos = s.pos := rfl
@[simp] theorem rspPut_cmd (w : Word) (s : State) : (rspPut w s).cmd = s.cmd := rfl
@[simp] theorem rspPut_rsp (w : Word) (s : State) : (rspPut w s).rsp = s.rsp ++ [w] := rfl
@[simp] theorem rspPut_rst (w : Word) (s : State) : (rspPut w s).rst = s.rst := rfl

/-! ## `respond` -/

@[simp] theorem respond_par (st : Status) (opc : Byte) (v : Word) (s : State) :
    (respond st opc v s).par = s.par := rfl
@[simp] theorem respond_cfgd (st : Status) (opc : Byte) (v : Word) (s : State) :
    (respond st opc v s).cfgd = s.cfgd := rfl
@[simp] theorem respond_halted (st : Status) (opc : Byte) (v : Word) (s : State) :
    (respond st opc v s).halted = s.halted := rfl
@[simp] theorem respond_m (st : Status) (opc : Byte) (v : Word) (s : State) :
    (respond st opc v s).m = s.m := rfl
@[simp] theorem respond_k (st : Status) (opc : Byte) (v : Word) (s : State) :
    (respond st opc v s).k = s.k := rfl
@[simp] theorem respond_seed (st : Status) (opc : Byte) (v : Word) (s : State) :
    (respond st opc v s).seed = s.seed := rfl
@[simp] theorem respond_lastErr (st : Status) (opc : Byte) (v : Word) (s : State) :
    (respond st opc v s).lastErr = s.lastErr := rfl
@[simp] theorem respond_bits (st : Status) (opc : Byte) (v : Word) (s : State) :
    (respond st opc v s).bits = s.bits := rfl
@[simp] theorem respond_taken (st : Status) (opc : Byte) (v : Word) (s : State) :
    (respond st opc v s).taken = s.taken := rfl
@[simp] theorem respond_pos (st : Status) (opc : Byte) (v : Word) (s : State) :
    (respond st opc v s).pos = s.pos := rfl
@[simp] theorem respond_cmd (st : Status) (opc : Byte) (v : Word) (s : State) :
    (respond st opc v s).cmd = s.cmd := rfl
@[simp] theorem respond_rsp (st : Status) (opc : Byte) (v : Word) (s : State) :
    (respond st opc v s).rsp = s.rsp ++ [statusWord st opc, v] := by simp [respond, rspPut]
@[simp] theorem respond_rst (st : Status) (opc : Byte) (v : Word) (s : State) :
    (respond st opc v s).rst = s.rst := rfl

/-! ## `raise` -/

@[simp] theorem raise_par (e : Status) (opc : Byte) (info : Word) (s : State) :
    (raise e opc info s).par = s.par := by cases e <;> rfl
@[simp] theorem raise_cfgd (e : Status) (opc : Byte) (info : Word) (s : State) :
    (raise e opc info s).cfgd = s.cfgd := by cases e <;> rfl
@[simp] theorem raise_halted (e : Status) (opc : Byte) (info : Word) (s : State) :
    (raise e opc info s).halted = (s.halted || e == Status.eIllegal) := by
  cases e <;> simp [raise, respond, rspPut, setHalted]
@[simp] theorem raise_m (e : Status) (opc : Byte) (info : Word) (s : State) :
    (raise e opc info s).m = s.m := by cases e <;> rfl
@[simp] theorem raise_k (e : Status) (opc : Byte) (info : Word) (s : State) :
    (raise e opc info s).k = s.k := by cases e <;> rfl
@[simp] theorem raise_seed (e : Status) (opc : Byte) (info : Word) (s : State) :
    (raise e opc info s).seed = s.seed := by cases e <;> rfl
@[simp] theorem raise_lastErr (e : Status) (opc : Byte) (info : Word) (s : State) :
    (raise e opc info s).lastErr = statusWord e opc := by cases e <;> rfl
@[simp] theorem raise_bits (e : Status) (opc : Byte) (info : Word) (s : State) :
    (raise e opc info s).bits = s.bits := by cases e <;> rfl
@[simp] theorem raise_taken (e : Status) (opc : Byte) (info : Word) (s : State) :
    (raise e opc info s).taken = s.taken := by cases e <;> rfl
@[simp] theorem raise_pos (e : Status) (opc : Byte) (info : Word) (s : State) :
    (raise e opc info s).pos = s.pos := by cases e <;> rfl
@[simp] theorem raise_cmd (e : Status) (opc : Byte) (info : Word) (s : State) :
    (raise e opc info s).cmd = s.cmd := by cases e <;> rfl
@[simp] theorem raise_rsp (e : Status) (opc : Byte) (info : Word) (s : State) :
    (raise e opc info s).rsp = s.rsp ++ [statusWord e opc, info] := by
  cases e <;> simp [raise, respond, rspPut, setHalted]
@[simp] theorem raise_rst (e : Status) (opc : Byte) (info : Word) (s : State) :
    (raise e opc info s).rst = s.rst := by cases e <;> rfl

/-! ## `takeCommand` -/

@[simp] theorem takeCommand_par (rest : List Word) (s : State) : (takeCommand rest s).par = s.par := rfl
@[simp] theorem takeCommand_cfgd (rest : List Word) (s : State) : (takeCommand rest s).cfgd = s.cfgd := rfl
@[simp] theorem takeCommand_halted (rest : List Word) (s : State) :
    (takeCommand rest s).halted = s.halted := rfl
@[simp] theorem takeCommand_m (rest : List Word) (s : State) : (takeCommand rest s).m = s.m := rfl
@[simp] theorem takeCommand_k (rest : List Word) (s : State) : (takeCommand rest s).k = s.k := rfl
@[simp] theorem takeCommand_seed (rest : List Word) (s : State) : (takeCommand rest s).seed = s.seed := rfl
@[simp] theorem takeCommand_lastErr (rest : List Word) (s : State) :
    (takeCommand rest s).lastErr = s.lastErr := rfl
@[simp] theorem takeCommand_bits (rest : List Word) (s : State) : (takeCommand rest s).bits = s.bits := rfl
@[simp] theorem takeCommand_taken (rest : List Word) (s : State) : (takeCommand rest s).taken = [] := rfl
@[simp] theorem takeCommand_pos (rest : List Word) (s : State) :
    (takeCommand rest s).pos = s.pos + (s.cmd.length - rest.length) := rfl
@[simp] theorem takeCommand_cmd (rest : List Word) (s : State) : (takeCommand rest s).cmd = rest := rfl
@[simp] theorem takeCommand_rsp (rest : List Word) (s : State) : (takeCommand rest s).rsp = s.rsp := rfl
@[simp] theorem takeCommand_rst (rest : List Word) (s : State) : (takeCommand rest s).rst = s.rst := rfl

/-! ## `takeAll` -/

@[simp] theorem takeAll_par (s : State) : (takeAll s).par = s.par := rfl
@[simp] theorem takeAll_cfgd (s : State) : (takeAll s).cfgd = s.cfgd := rfl
@[simp] theorem takeAll_halted (s : State) : (takeAll s).halted = s.halted := rfl
@[simp] theorem takeAll_m (s : State) : (takeAll s).m = s.m := rfl
@[simp] theorem takeAll_k (s : State) : (takeAll s).k = s.k := rfl
@[simp] theorem takeAll_seed (s : State) : (takeAll s).seed = s.seed := rfl
@[simp] theorem takeAll_lastErr (s : State) : (takeAll s).lastErr = s.lastErr := rfl
@[simp] theorem takeAll_bits (s : State) : (takeAll s).bits = s.bits := rfl
@[simp] theorem takeAll_taken (s : State) : (takeAll s).taken = s.taken ++ s.cmd := rfl
@[simp] theorem takeAll_pos (s : State) : (takeAll s).pos = s.pos + s.cmd.length := rfl
@[simp] theorem takeAll_cmd (s : State) : (takeAll s).cmd = [] := rfl
@[simp] theorem takeAll_rsp (s : State) : (takeAll s).rsp = s.rsp := rfl
@[simp] theorem takeAll_rst (s : State) : (takeAll s).rst = s.rst := rfl

/-! ## `resetNow` -/

@[simp] theorem resetNow_par (s : State) : (resetNow s).par = s.par := rfl
@[simp] theorem resetNow_cfgd (s : State) : (resetNow s).cfgd = false := rfl
@[simp] theorem resetNow_halted (s : State) : (resetNow s).halted = false := rfl
@[simp] theorem resetNow_m (s : State) : (resetNow s).m = 0#32 := rfl
@[simp] theorem resetNow_k (s : State) : (resetNow s).k = 0#32 := rfl
@[simp] theorem resetNow_seed (s : State) : (resetNow s).seed = 0#32 := rfl
@[simp] theorem resetNow_lastErr (s : State) : (resetNow s).lastErr = 0#32 := rfl
@[simp] theorem resetNow_bits (s : State) : (resetNow s).bits = [] := rfl
@[simp] theorem resetNow_taken (s : State) : (resetNow s).taken = [] := rfl
@[simp] theorem resetNow_pos (s : State) : (resetNow s).pos = 0 := rfl
@[simp] theorem resetNow_cmd (s : State) : (resetNow s).cmd = [] := rfl
@[simp] theorem resetNow_rsp (s : State) : (resetNow s).rsp = [] := rfl
@[simp] theorem resetNow_rst (s : State) : (resetNow s).rst = false := rfl

/-! ## `commitFilter` -/

@[simp] theorem commitFilter_par (m k : Nat) (seed : Word) (s : State) :
    (commitFilter m k seed s).par = s.par := rfl
@[simp] theorem commitFilter_cfgd (m k : Nat) (seed : Word) (s : State) :
    (commitFilter m k seed s).cfgd = true := rfl
@[simp] theorem commitFilter_halted (m k : Nat) (seed : Word) (s : State) :
    (commitFilter m k seed s).halted = s.halted := rfl
@[simp] theorem commitFilter_m (m k : Nat) (seed : Word) (s : State) :
    (commitFilter m k seed s).m = BitVec.ofNat 32 m := rfl
@[simp] theorem commitFilter_k (m k : Nat) (seed : Word) (s : State) :
    (commitFilter m k seed s).k = BitVec.ofNat 32 k := rfl
@[simp] theorem commitFilter_seed (m k : Nat) (seed : Word) (s : State) :
    (commitFilter m k seed s).seed = seed := rfl
@[simp] theorem commitFilter_lastErr (m k : Nat) (seed : Word) (s : State) :
    (commitFilter m k seed s).lastErr = s.lastErr := rfl
@[simp] theorem commitFilter_bits (m k : Nat) (seed : Word) (s : State) :
    (commitFilter m k seed s).bits = [] := rfl
@[simp] theorem commitFilter_taken (m k : Nat) (seed : Word) (s : State) :
    (commitFilter m k seed s).taken = s.taken := rfl
@[simp] theorem commitFilter_pos (m k : Nat) (seed : Word) (s : State) :
    (commitFilter m k seed s).pos = s.pos := rfl
@[simp] theorem commitFilter_cmd (m k : Nat) (seed : Word) (s : State) :
    (commitFilter m k seed s).cmd = s.cmd := rfl
@[simp] theorem commitFilter_rsp (m k : Nat) (seed : Word) (s : State) :
    (commitFilter m k seed s).rsp = s.rsp := rfl
@[simp] theorem commitFilter_rst (m k : Nat) (seed : Word) (s : State) :
    (commitFilter m k seed s).rst = s.rst := rfl

/-! ## `placeWords` -/

@[simp] theorem placeWords_par (ws : List Word) (s : State) : (placeWords ws s).par = s.par := rfl
@[simp] theorem placeWords_cfgd (ws : List Word) (s : State) : (placeWords ws s).cfgd = s.cfgd := rfl
@[simp] theorem placeWords_halted (ws : List Word) (s : State) : (placeWords ws s).halted = s.halted := rfl
@[simp] theorem placeWords_m (ws : List Word) (s : State) : (placeWords ws s).m = s.m := rfl
@[simp] theorem placeWords_k (ws : List Word) (s : State) : (placeWords ws s).k = s.k := rfl
@[simp] theorem placeWords_seed (ws : List Word) (s : State) : (placeWords ws s).seed = s.seed := rfl
@[simp] theorem placeWords_lastErr (ws : List Word) (s : State) : (placeWords ws s).lastErr = s.lastErr := rfl
@[simp] theorem placeWords_bits (ws : List Word) (s : State) : (placeWords ws s).bits = s.bits := rfl
@[simp] theorem placeWords_taken (ws : List Word) (s : State) : (placeWords ws s).taken = [] := rfl
@[simp] theorem placeWords_pos (ws : List Word) (s : State) : (placeWords ws s).pos = s.pos := rfl
@[simp] theorem placeWords_cmd (ws : List Word) (s : State) : (placeWords ws s).cmd = ws ++ s.cmd := rfl
@[simp] theorem placeWords_rsp (ws : List Word) (s : State) : (placeWords ws s).rsp = s.rsp := rfl
@[simp] theorem placeWords_rst (ws : List Word) (s : State) : (placeWords ws s).rst = s.rst := rfl

/-! ## `offer` -/

@[simp] theorem offer_par (ws : List Word) (s : State) : (offer ws s).par = s.par := rfl
@[simp] theorem offer_cfgd (ws : List Word) (s : State) : (offer ws s).cfgd = s.cfgd := rfl
@[simp] theorem offer_halted (ws : List Word) (s : State) : (offer ws s).halted = s.halted := rfl
@[simp] theorem offer_m (ws : List Word) (s : State) : (offer ws s).m = s.m := rfl
@[simp] theorem offer_k (ws : List Word) (s : State) : (offer ws s).k = s.k := rfl
@[simp] theorem offer_seed (ws : List Word) (s : State) : (offer ws s).seed = s.seed := rfl
@[simp] theorem offer_lastErr (ws : List Word) (s : State) : (offer ws s).lastErr = s.lastErr := rfl
@[simp] theorem offer_bits (ws : List Word) (s : State) : (offer ws s).bits = s.bits := rfl
@[simp] theorem offer_taken (ws : List Word) (s : State) : (offer ws s).taken = s.taken := rfl
@[simp] theorem offer_pos (ws : List Word) (s : State) : (offer ws s).pos = s.pos := rfl
@[simp] theorem offer_cmd (ws : List Word) (s : State) : (offer ws s).cmd = s.cmd ++ ws := rfl
@[simp] theorem offer_rsp (ws : List Word) (s : State) : (offer ws s).rsp = s.rsp := rfl
@[simp] theorem offer_rst (ws : List Word) (s : State) : (offer ws s).rst = s.rst := rfl

/-! ## `raiseRst` -/

@[simp] theorem raiseRst_par (s : State) : (raiseRst s).par = s.par := rfl
@[simp] theorem raiseRst_cfgd (s : State) : (raiseRst s).cfgd = s.cfgd := rfl
@[simp] theorem raiseRst_halted (s : State) : (raiseRst s).halted = s.halted := rfl
@[simp] theorem raiseRst_m (s : State) : (raiseRst s).m = s.m := rfl
@[simp] theorem raiseRst_k (s : State) : (raiseRst s).k = s.k := rfl
@[simp] theorem raiseRst_seed (s : State) : (raiseRst s).seed = s.seed := rfl
@[simp] theorem raiseRst_lastErr (s : State) : (raiseRst s).lastErr = s.lastErr := rfl
@[simp] theorem raiseRst_bits (s : State) : (raiseRst s).bits = s.bits := rfl
@[simp] theorem raiseRst_taken (s : State) : (raiseRst s).taken = s.taken := rfl
@[simp] theorem raiseRst_pos (s : State) : (raiseRst s).pos = s.pos := rfl
@[simp] theorem raiseRst_cmd (s : State) : (raiseRst s).cmd = s.cmd := rfl
@[simp] theorem raiseRst_rsp (s : State) : (raiseRst s).rsp = s.rsp := rfl
@[simp] theorem raiseRst_rst (s : State) : (raiseRst s).rst = true := rfl

end Sys2Proof.Laws
end

