-- ==== Sys2Proof/Laws/Ops.lean ====
section
/-! SUPPORT. One lemma per shared operation: everything it can do. -/

namespace Sys2Proof.Laws

open Sys2Proof.Machine

/-- Raising an error: `LASTERR`, the response, and the halt for `E_ILLEGAL`; nothing else (R207). -/
theorem raise_eq (e : Status) (opc : Byte) (info : Word) (s : State) :
    raise e opc info s =
      { s with
        lastErr := statusWord e opc
        rsp := s.rsp ++ [statusWord e opc, info]
        halted := s.halted || e == Status.eIllegal } := by
  cases e <;> simp [raise, respond, rspPut, setHalted]

/-- The response of a command: two words at the end of the response stream; nothing else (R95). -/
theorem respond_eq (st : Status) (opc : Byte) (v : Word) (s : State) :
    respond st opc v s = { s with rsp := s.rsp ++ [statusWord st opc, v] } := by
  simp [respond, rspPut]

theorem cellExists_iff {s : State} {a : Nat} : cellExists s a = true ↔ s.cfgd = true ∧ a < s.m.toNat := by
  simp [cellExists]

/-- Setting cells that exist: the bits are written in turn; nothing else changes. -/
theorem setCells_eq {as : List Nat} {s : State} (h : ∀ a ∈ as, cellExists s a = true) :
    setCells as s = some { s with bits := setList s.bits as } := by
  induction as generalizing s with
  | nil => rfl
  | cons a as ih =>
    have ha : cellExists s a = true := h a (by simp)
    simp only [setCells, bitSet, ha, if_true]
    exact ih fun b hb => h b (by simp [hb])

/-- If cells were set, they all exist. -/
theorem setCells_some {as : List Nat} {s t : State} (h : setCells as s = some t) :
    (∀ a ∈ as, cellExists s a = true) ∧ t = { s with bits := setList s.bits as } := by
  have hex : ∀ a ∈ as, cellExists s a = true := by
    induction as generalizing s with
    | nil => simp
    | cons a as ih =>
      by_cases ha : cellExists s a = true
      · simp only [setCells, bitSet, ha, if_true] at h
        intro b hb
        rcases List.mem_cons.1 hb with rfl | hb
        · exact ha
        · exact ih h b hb
      · simp [setCells, bitSet, ha] at h
  exact ⟨hex, Option.some.inj (h.symm.trans (setCells_eq hex))⟩

/-- Probing cells that exist: whether all of them are 1 (R167). -/
theorem probeCells_eq {as : List Nat} {s : State} (h : ∀ a ∈ as, cellExists s a = true) :
    probeCells s as = some (as.all fun a => decide (Memory.read s.bits a = 1#1)) := by
  induction as with
  | nil => rfl
  | cons a as ih =>
    have ha : cellExists s a = true := h a (by simp)
    simp only [probeCells, bitRead, ha, if_true, List.all_cons]
    by_cases hz : Memory.read s.bits a = 0#1
    · simp [hz]
    · rw [if_neg hz, ih fun b hb => h b (by simp [hb])]
      simp [bit_eq_one_of_ne_zero hz]

/-- RDCSR finds a register exactly at the addresses 0 to 7 (R30). -/
theorem csrRead_isSome (csra : Byte) (s : State) : (csrRead csra s).isSome = true ↔ csra.toNat ≤ 7 := by
  have key : csra.toNat ≤ 7 ↔ csra = 0#8 ∨ csra = 1#8 ∨ csra = 2#8 ∨ csra = 3#8 ∨ csra = 4#8 ∨ csra = 5#8 ∨ csra = 6#8 ∨ csra = 7#8 := by
    revert csra; decide +kernel
  rw [key]
  unfold csrRead
  split_ifs <;> simp_all

/-- What fetching a command leaves of the streams: nothing is lost but the command's own words. -/
theorem takeCommand_eq (rest : List Word) (s : State) :
    takeCommand rest s =
      { s with taken := [], cmd := rest, pos := s.pos + (s.cmd.length - rest.length) } := rfl

end Sys2Proof.Laws
end

