-- ==== Sys2Proof/Laws/PerInstr.lean ====
section
/-! SUPPORT. The statements made per instruction: an encoded command has the length R90 gives it, and it begins with the
legal header of its opcode (R83, R84). -/

namespace Sys2Proof.Laws

/-- A well-formed command is encoded in `CmdLen` words (R90). -/
def EncodedLength.Statement (i : Instr) : Prop := i.wf = true → (encode i).length = i.cmdLen

theorem EncodedLength.cfg (n pLo pHi seed : Word) : EncodedLength.Statement (.cfg n pLo pHi seed) := fun _ => rfl

theorem EncodedLength.add (len : Word) (key : List Byte) : EncodedLength.Statement (.add len key) := fun h => by
  have h : key.length = len.toNat := by simpa [Instr.wf] using h
  simp only [encode, Instr.cmdLen, List.length_cons, length_packBytes, h]
  omega

theorem EncodedLength.qry (len : Word) (key : List Byte) : EncodedLength.Statement (.qry len key) := fun h => by
  have h : key.length = len.toNat := by simpa [Instr.wf] using h
  simp only [encode, Instr.cmdLen, List.length_cons, length_packBytes, h]
  omega

theorem EncodedLength.hash (hseed len : Word) (data : List Byte) :
    EncodedLength.Statement (.hash hseed len data) := fun h => by
  have h : data.length = len.toNat := by simpa [Instr.wf] using h
  simp only [encode, Instr.cmdLen, List.length_cons, length_packBytes, h]
  omega

theorem EncodedLength.rdcsr (csra : Byte) : EncodedLength.Statement (.rdcsr csra) := fun _ => rfl

/-- The first word of a command's encoding holds its opcode and a zero `RSV` field; `ARG` is the register address of
RDCSR and zero otherwise (R83, R97). -/
def LegalHeader.Statement (i : Instr) : Prop :=
  ∃ w ws, encode i = w :: ws ∧ opcOf w = i.opc ∧ rsvOf w = 0#16 ∧
    argOf w = match i with
      | .rdcsr csra => csra
      | _ => 0#8

theorem LegalHeader.cfg (n pLo pHi seed : Word) : LegalHeader.Statement (.cfg n pLo pHi seed) :=
  ⟨_, _, rfl, opcOf_header _ _, rsvOf_header _ _, argOf_header _ _⟩

theorem LegalHeader.add (len : Word) (key : List Byte) : LegalHeader.Statement (.add len key) :=
  ⟨_, _, rfl, opcOf_header _ _, rsvOf_header _ _, argOf_header _ _⟩

theorem LegalHeader.qry (len : Word) (key : List Byte) : LegalHeader.Statement (.qry len key) :=
  ⟨_, _, rfl, opcOf_header _ _, rsvOf_header _ _, argOf_header _ _⟩

theorem LegalHeader.hash (hseed len : Word) (data : List Byte) : LegalHeader.Statement (.hash hseed len data) :=
  ⟨_, _, rfl, opcOf_header _ _, rsvOf_header _ _, argOf_header _ _⟩

theorem LegalHeader.rdcsr (csra : Byte) : LegalHeader.Statement (.rdcsr csra) :=
  ⟨_, _, rfl, opcOf_header _ _, rsvOf_header _ _, argOf_header _ _⟩

end Sys2Proof.Laws
end

