-- ==== Sys2Proof/Laws/Sizing.lean ====
section
/-! SUPPORT. What the sizing function answers (R143), and how tight the enclosure is at the first precision. -/

namespace Sys2Proof.Laws

open Sys2Proof.Machine

/-- The computed size is `ceil(x)`, at every pair of accepted operands. -/
theorem sizingM_eq_ceil {n : Nat} {P : BitVec 64} (hv : ValidOperands n P) : sizingM n P = ⌈sizeReal n P⌉₊ := by
  have henc := sizingM_enclosed (prec := sizingBits) (by decide) hv
  unfold sizingM
  split_ifs with h
  · exact le_antisymm henc.1 (henc.2.trans h)
  · exact (sizingSearch n P hv 1).2

section width

variable {a c : Nat}

theorem ceilDiv_add_two_le (q d : Nat) (hd : 0 < d) : ceilDiv (q + 2) d ≤ q / d + 2 := by
  rw [ceilDiv_le_iff hd]
  have := Nat.div_add_mod q d
  have := Nat.mod_lt q hd
  nlinarith

/-- Rounding and the tail cost at most two units a term, as long as `T ≤ 1/3`. -/
theorem seriesHi_le (hc : 0 < c) (h3 : 3 * a ≤ c) (t i : Nat) {q q' : Nat} (hq : q' ≤ q + 2) :
    seriesHi a c t i q' ≤ seriesLo a c t i q + 2 * t + 4 + 2 * (q / 9 ^ t) := by
  induction t generalizing i q q' with
  | zero => simp only [seriesHi, seriesLo, pow_zero, Nat.div_one]; omega
  | succ t ih =>
    have h9 : 9 * (a * a) ≤ c * c := by nlinarith
    have hcc : 0 < c * c := Nat.mul_pos hc hc
    have hmono {x y d : Nat} (hd : 0 < d) (h : x ≤ y) : ceilDiv x d ≤ ceilDiv y d :=
      (ceilDiv_le_iff hd).2 (h.trans ((ceilDiv_le_iff hd).1 le_rfl))
    have hterm : ceilDiv q' (2 * i + 1) ≤ q / (2 * i + 1) + 2 :=
      (hmono (by omega) hq).trans (ceilDiv_add_two_le q _ (by omega))
    have hnext : ceilDiv (q' * a * a) (c * c) ≤ q * a * a / (c * c) + 2 := by
      rw [ceilDiv_le_iff hcc]
      have h1 := Nat.div_add_mod (q * a * a) (c * c)
      have h2 := Nat.mod_lt (q * a * a) hcc
      have h4 : q' * a * a ≤ q * a * a + 2 * (a * a) := by
        rw [mul_assoc, mul_assoc, ← Nat.add_mul]
        exact Nat.mul_le_mul_right _ hq
      have h5 : c * c * (q * a * a / (c * c)) = q * a * a / (c * c) * (c * c) := Nat.mul_comm _ _
      rw [Nat.add_mul]
      omega
    have hdrop : q * a * a / (c * c) ≤ q / 9 := by
      rw [Nat.div_le_iff_le_mul_add_pred hcc, mul_assoc]
      have h1 := Nat.div_add_mod q 9
      have h2 := Nat.mod_lt q (show 0 < 9 by norm_num)
      have h4 : q * (a * a) ≤ (9 * (q / 9) + 8) * (a * a) := Nat.mul_le_mul_right _ (by omega)
      have h5 : (9 * (q / 9) + 8) * (a * a) = q / 9 * (9 * (a * a)) + 8 * (a * a) := by ring
      have h6 : q / 9 * (9 * (a * a)) ≤ q / 9 * (c * c) := Nat.mul_le_mul_left _ h9
      have h7 : c * c * (q / 9) = q / 9 * (c * c) := Nat.mul_comm _ _
      omega
    have htail : q * a * a / (c * c) / 9 ^ t ≤ q / 9 ^ (t + 1) := by
      rw [pow_succ', ← Nat.div_div_eq_div_mul q]
      exact Nat.div_le_div_right hdrop
    have := ih (i + 1) hnext
    simp only [seriesHi, seriesLo]
    omega

/-- At the first precision the bounds of the logarithm of a ratio differ by at most 264 units. -/
theorem lnRatioHi_le (hc : 0 < c) (h3 : 3 * a ≤ c) : lnRatioHi sizingBits a c ≤ lnRatioLo sizingBits a c + 264 := by
  have hq : ceilDiv (sizingScale sizingBits * a) c ≤ sizingScale sizingBits * a / c + 2 := by
    have := ceilDiv_add_two_le (sizingScale sizingBits * a) c hc
    exact le_trans ((ceilDiv_le_iff hc).2 (le_trans (by omega) ((ceilDiv_le_iff hc).1 le_rfl))) this
  have h := seriesHi_le hc h3 (sizingTerms sizingBits) 0 hq
  have hsmall : sizingScale sizingBits * a / c / 9 ^ sizingTerms sizingBits = 0 := by
    have h1 : sizingScale sizingBits * a / c ≤ sizingScale sizingBits / 3 := by
      rw [Nat.le_div_iff_mul_le (by norm_num)]
      have := Nat.div_mul_le_self (sizingScale sizingBits * a) c
      have h4 : sizingScale sizingBits * a / c * (3 * a) ≤ sizingScale sizingBits * a / c * c := Nat.mul_le_mul_left _ h3
      rcases Nat.eq_zero_or_pos a with rfl | ha
      · simp
      · exact Nat.le_of_mul_le_mul_right (by rw [mul_assoc]; exact h4.trans this) ha
    exact Nat.div_eq_of_lt (h1.trans_lt (by decide +kernel))
  have ht : sizingTerms sizingBits = 64 := rfl
  rw [hsmall, ht] at h
  simp only [lnRatioHi, lnRatioLo, ht]
  omega

end width

/-- At the first precision the bounds of `-ln(A * 2^(-s))` differ by at most 264 units for each power of two and 264
more. -/
theorem negLnHi_le {A s : Nat} (hA : A ≠ 0) :
    negLnHi sizingBits A s ≤ negLnLo sizingBits A s + 264 * (s - A.log2) + 264 := by
  obtain ⟨hpos, hthird⟩ := mantissa_ratio hA
  have h1 := lnRatioHi_le hpos hthird
  have h2 : ln2Hi sizingBits ≤ ln2Lo sizingBits + 264 := lnRatioHi_le (by norm_num) (by norm_num)
  have h3 := Nat.mul_le_mul_left (s - A.log2) h2
  rw [Nat.mul_add] at h3
  simp only [negLnHi, negLnLo]
  omega

end Sys2Proof.Laws
end

