-- ==== Sys2Proof/Laws/Step.lean ====
section
/-! SUPPORT. Everything a command, a step and the host's taking a response can do, each said once. -/

namespace Sys2Proof.Laws

open Sys2Proof.Machine

/-- Raising a recoverable error changes `LASTERR` and the responses only (R207). -/
theorem raise_next {e : Status} (he : e ≠ .eIllegal) (opc : Byte) (v : Word) (s : State) :
    raise e opc v s = { s with lastErr := statusWord e opc, rsp := s.rsp ++ [statusWord e opc, v] } := by
  have : (e == Status.eIllegal) = false := by simp [he]
  simp [raise_eq, this]

/-- What a command that answers a next state has done: raised a recoverable error; or answered `OK`, changing at most
the cells of an ADD; or committed a Filter. -/
def Answered (i : Instr) (s t : State) : Prop :=
  (∃ st v, st ≠ Status.ok ∧ st ≠ Status.eIllegal ∧
    t = { s with lastErr := statusWord st i.opc, rsp := s.rsp ++ [statusWord st i.opc, v] }) ∨
  (∃ v, t = { s with bits := t.bits, rsp := s.rsp ++ [statusWord .ok i.opc, v] } ∧
    (t.bits = s.bits ∨ ∃ len key, i = .add len key ∧ s.cfgd = true ∧
      (∀ a ∈ filterIndices s key, cellExists s a = true) ∧ t.bits = setList s.bits (filterIndices s key))) ∨
  ∃ n pLo pHi seed, i = .cfg n pLo pHi seed ∧ s.cfgd = false ∧ validCount n = true ∧
    validRate (ratePattern pHi pLo) = true ∧ sizeFits (sizingM n.toNat (ratePattern pHi pLo)) s = true ∧
    t = respond .ok 0x01#8 (BitVec.ofNat 32 (sizingM n.toNat (ratePattern pHi pLo)))
      (commitFilter (sizingM n.toNat (ratePattern pHi pLo))
        (sizingK n.toNat (sizingM n.toNat (ratePattern pHi pLo))) seed s)

theorem Answered.error {i : Instr} {s : State} (e : Status) (v : Word) (h : e ≠ .ok) (h' : e ≠ .eIllegal) :
    Answered i s (raise e i.opc v s) := .inl ⟨e, v, h, h', raise_next h' _ _ _⟩

theorem Answered.quiet {i : Instr} {s : State} (v : Word) : Answered i s (respond .ok i.opc v s) :=
  .inr (.inl ⟨v, by rw [respond_eq], .inl (by simp)⟩)

/-- Everything `exec` can do when it answers a next state. -/
theorem exec_next {i : Instr} {s t : State} (h : exec i s = .next t) : Answered i s t := by
  cases i with
  | cfg n pLo pHi seed =>
    simp only [exec, execCfg] at h
    split_ifs at h with h1 h2 h3 h4 <;> cases h
    · exact .error _ _ (by simp) (by simp)
    · exact .error _ _ (by simp) (by simp)
    · exact .error _ _ (by simp) (by simp)
    · exact .error _ _ (by simp) (by simp)
    · exact .inr (.inr ⟨n, pLo, pHi, seed, rfl, by simpa using h1, by simpa using h2, by simpa using h3,
        by simpa using h4, rfl⟩)
  | add len key =>
    simp only [exec, execAdd] at h
    split_ifs at h with h1 h2
    · cases h; exact .error _ _ (by simp) (by simp)
    · cases h; exact .error _ _ (by simp) (by simp)
    · split at h <;> cases h
      obtain ⟨hx, rfl⟩ := setCells_some ‹_›
      exact .inr (.inl ⟨0#32, by rw [respond_eq]; rfl, .inr ⟨len, key, rfl, by simpa using h1, hx, by simp⟩⟩)
  | qry len key =>
    simp only [exec, execQry] at h
    split_ifs at h
    · cases h; exact .error _ _ (by simp) (by simp)
    · cases h; exact .error _ _ (by simp) (by simp)
    · split at h <;> cases h
      exact .quiet _
  | hash hseed len data =>
    simp only [exec, execHash] at h
    split_ifs at h <;> cases h
    · exact .error _ _ (by simp) (by simp)
    · exact .quiet _
  | rdcsr csra =>
    simp only [exec, execRdcsr] at h
    split at h <;> cases h
    · exact .quiet _
    · exact .error _ _ (by simp) (by simp)

/-- The status code of a response's first word. -/
theorem statusWord_code (st : Status) (opc : Byte) : (statusWord st opc).extractLsb' 0 8 = st.code := by
  ext i hi
  simp only [statusWord, BitVec.getElem_extractLsb', Nat.zero_add]
  rw [BitVec.getLsbD_append]
  simp [hi]

/-- The response of a command, the error record, and what no command touches. -/
theorem exec_response {i : Instr} {s t : State} (h : exec i s = .next t) :
    ∃ st v, st ≠ Status.eIllegal ∧ t.rsp = s.rsp ++ [statusWord st i.opc, v] ∧
      t.lastErr = (if st = .ok then s.lastErr else statusWord st i.opc) ∧
      t.cmd = s.cmd ∧ t.taken = s.taken ∧ t.pos = s.pos ∧ t.halted = s.halted ∧ t.rst = s.rst ∧ t.par = s.par := by
  rcases exec_next h with ⟨st, v, h1, h2, rfl⟩ | ⟨v, h1, -⟩ | ⟨n, a, b, c, rfl, -, -, -, -, rfl⟩
  · exact ⟨st, v, h2, rfl, by simp [h1], rfl, rfl, rfl, rfl, rfl, rfl⟩
  · rw [h1]
    exact ⟨.ok, v, by simp, rfl, by simp, rfl, rfl, rfl, rfl, rfl, rfl⟩
  · exact ⟨.ok, _, by simp, by simp only [respond_eq]; rfl, by simp, by simp, by simp, by simp, by simp, by simp, by simp⟩

/-- Everything a step can do when it answers a next state. -/
theorem step_next {s t : State} (h : step s = .next t) :
    (s.rst = true ∧ t = resetNow s) ∨
    (s.rst = false ∧ s.halted = false ∧ rspRoom s = false ∧ t = s) ∨
    (s.rst = false ∧ s.halted = false ∧ rspRoom s = true ∧
      ((∃ i rest, decode (s.taken ++ s.cmd) = .ok (i, rest) ∧ exec i (takeCommand rest s) = .next t) ∨
        (∃ e w, decode (s.taken ++ s.cmd) = .error e ∧ e.illegalHeader = some w ∧ t = illegalCommand w s) ∨
        ∃ owed, decode (s.taken ++ s.cmd) = .error (.waiting owed) ∧ t = takeAll s)) := by
  unfold step at h
  split_ifs at h with h1 h2 h3
  · cases h; exact .inl ⟨h1, rfl⟩
  · cases h; exact .inr (.inl ⟨by simpa using h1, by simpa using h2, by simpa using h3, rfl⟩)
  · refine .inr (.inr ⟨by simpa using h1, by simpa using h2, by simpa using h3, ?_⟩)
    split at h
    · exact .inl ⟨_, _, by assumption, h⟩
    · rename_i e hd
      split at h <;> cases h
      · exact .inr (.inl ⟨e, _, hd, by assumption, rfl⟩)
      · cases e <;> simp_all [Reject.illegalHeader, streamWords, awaitWords]

/-- What the host's taking a response word does. -/
theorem takeRsp_next {s t : State} {w : Word} (h : takeRsp s = some (w, t)) :
    s.rst = false ∧ s.rsp = w :: t.rsp ∧ t = { s with rsp := t.rsp } := by
  unfold takeRsp at h
  split at h
  · cases h
  · rename_i hrsp
    split_ifs at h with hr
    cases h
    exact ⟨by simpa using hr, hrsp, rfl⟩

end Sys2Proof.Laws
end

