-- ==== Sys2Proof/Tests/Slice0.lean ====
section
/-! SUPPORT. Tests of the model against the spec's own worked encodings and vectors (30_encoding R102, 41_config R151,
95_test_vectors), each on one step, and a witness for the hypotheses of every statement that has some. -/

namespace Sys2Proof.Tests

-- One theorem after another: the kernel evaluations below would each hold a thread of its own.
set_option Elab.async false

open Sys2Proof.Machine Sys2Proof.Statements

/-! ## Helpers -/

/-- The next state of an answer, if it is one. -/
def nextState : Result → Option State
  | .next t => some t
  | _ => none

theorem next_of {r : Result} {t : State} (h : nextState r = some t) : r = .next t := by
  cases r <;> simp_all [nextState]

/-- The responses after a step. -/
def answers (r : Result) : Option (List Word) := (nextState r).map (·.rsp)

/-- The cells set after a step. -/
def cellsSet (r : Result) : Option (List Nat) := (nextState r).map fun t => t.bits.map (·.1)

/-- The words of a command offered to a state. -/
def withWords (ws : List Word) (s : State) : State := { s with cmd := ws }

/-- The state of 95_test_vectors section 5 line 11: `CFG 1000, 0.01, 42` has run. -/
def filter1000 : State :=
  { State.reset with cfgd := true, m := 9586#32, k := 7#32, seed := 0x2A#32, bits := [] }

/-- Program 2 after step 3: `M = 48`, `K = 3`, `SEED = 0`, cells 2 and 24 set. -/
def filter48 : State :=
  { State.reset with cfgd := true, m := 48#32, k := 3#32, seed := 0#32, bits := [(2, 1#1), (24, 1#1)] }

/-- Program 3 before step 8: `M = 10`, `K = 7`, `SEED = FFFFFFFE`. -/
def filterWrap : State :=
  { State.reset with cfgd := true, m := 10#32, k := 7#32, seed := 0xFFFFFFFE#32, bits := [] }

/-- A configured block with `KEY_MAX = 8` (95_test_vectors section 5 line 20). -/
def shortKeys : State := { filter48 with par := { Params.reference with keyMax := 8#32 } }

/-- A block that can hold two response words. -/
def twoWords : State := { State.reset with par := { Params.reference with rspDepth := some 2 } }

/-- The halted block of 95_test_vectors section 5 line 21. -/
def stopped : State :=
  { State.reset with halted := true, lastErr := 0x00000005#32, pos := 1, rsp := [0x00000005#32, 0#32] }

/-- `"apple"`. -/
def apple : List Byte := [0x61#8, 0x70#8, 0x70#8, 0x6C#8, 0x65#8]

/-- `"a"`. -/
def keyA : List Byte := [0x61#8]

/-- The words of `ADD "a"`. -/
def addA : List Word := [0x00000002#32, 0x00000001#32, 0x00000061#32]

/-- The words of `CFG 1000, 0.01, 42`. -/
def cfg1000 : List Word := [0x00000001#32, 0x000003E8#32, 0x47AE147B#32, 0x3F847AE1#32, 0x0000002A#32]

/-- A check of `State.Inv` that evaluates. -/
def invCheck (s : State) : Bool :=
  s.par.wf && Memory.wf s.bits && s.bits.all (fun c => decide (c.1 < s.m.toNat)) &&
    (s.cfgd || decide (s.m = 0#32 ∧ s.k = 0#32 ∧ s.seed = 0#32 ∧ s.bits = [])) &&
    (!s.cfgd || decide (1 ≤ s.m.toNat ∧ s.m.toNat ≤ s.par.mMax.toNat ∧ 1 ≤ s.k.toNat ∧ s.k.toNat ≤ 1075)) &&
    (decide (s.lastErr = 0#32) ||
      [Status.eSizing, .eState, .eKeylen, .eCsr, .eIllegal].any fun e =>
        decide (s.lastErr = statusWord e (s.lastErr.extractLsb' 8 8))) &&
    decide (s.halted = true ↔ s.lastErr.extractLsb' 0 8 = Status.eIllegal.code) &&
    (!s.halted || decide (s.taken = [])) &&
    (match decode s.taken with
      | .error (.waiting _) => true
      | _ => false) &&
    (match s.par.rspDepth with
      | none => true
      | some d => decide (s.rsp.length ≤ d))

theorem inv_of_check {s : State} (h : invCheck s = true) : s.Inv := by
  simp only [invCheck, Bool.and_eq_true, Bool.or_eq_true, decide_eq_true_eq, List.all_eq_true, List.any_eq_true,
    Bool.not_eq_true'] at h
  obtain ⟨⟨⟨⟨⟨⟨⟨⟨⟨h1, h2⟩, h3⟩, h4⟩, h5⟩, h6⟩, h7⟩, h8⟩, h9⟩, h10⟩ := h
  refine ⟨h1, h2, h3, fun hc => ?_, fun hc => ?_, ?_, h7, fun hc => ?_, ?_, fun d hd => ?_⟩
  · simpa [hc] using h4
  · simpa [hc] using h5
  · rcases h6 with h | ⟨e, he, h⟩
    · exact .inl h
    · exact .inr ⟨e, _, by rintro rfl; simp at he, h⟩
  · simpa [hc] using h8
  · split at h9
    · exact ⟨_, by assumption⟩
    · cases h9
  · simpa [hd] using h10

/-! ## Well-formed terms -/

theorem test_wf_refuses_long_add : (Instr.add 4#32 apple).wf = false := by decide
theorem test_wf_refuses_short_qry : (Instr.qry 6#32 apple).wf = false := by decide
theorem test_wf_refuses_hash : (Instr.hash 0#32 1#32 []).wf = false := by decide
theorem test_wf_accepts : (Instr.cfg 0#32 0#32 0#32 0#32).wf ∧ (Instr.add 5#32 apple).wf ∧ (Instr.qry 0#32 []).wf ∧
    (Instr.hash 0#32 5#32 apple).wf ∧ (Instr.rdcsr 0xFF#8).wf := by decide

/-! ## Decoding words written out from R83 to R88, R93 -/

theorem test_decode_cfg :
    decode [0b00000000000000000000000000000001#32, 0b00000000000000000000001111101000#32,
      0b01000111101011100001010001111011#32, 0b00111111100001000111101011100001#32,
      0b00000000000000000000000000101010#32] = .ok (.cfg 1000#32 0x47AE147B#32 0x3F847AE1#32 42#32, []) := by decide
theorem test_decode_add :
    decode [0b00000000000000000000000000000010#32, 0b00000000000000000000000000000101#32,
      0b01101100011100000111000001100001#32, 0b00000000000000000000000001100101#32] =
      .ok (.add 5#32 apple, []) := by decide
theorem test_decode_qry :
    decode [0b00000000000000000000000000000011#32, 0b00000000000000000000000000000010#32,
      0b00000000000000000111000101101001#32] = .ok (.qry 2#32 [0x69#8, 0x71#8], []) := by decide
theorem test_decode_hash :
    decode [0b00000000000000000000000000000100#32, 0b00000000000000000000000000000000#32,
      0b00000000000000000000000000000100#32, 0b10000111011001010100001100100001#32] =
      .ok (.hash 0#32 4#32 [0x21#8, 0x43#8, 0x65#8, 0x87#8], []) := by decide
theorem test_decode_rdcsr :
    decode [0b00000000000000000000001100000101#32, 0x12345678#32] = .ok (.rdcsr 0x03#8, [0x12345678#32]) := by decide
/-- 95_test_vectors section 5 lines 21 to 25. -/
theorem test_decode_illegal :
    decode [0x00000000#32] = .error (.noSuchOpcode 0x00000000#32) ∧
    decode [0x00000006#32] = .error (.noSuchOpcode 0x00000006#32) ∧
    decode [0x00000102#32] = .error (.argNonzero 0x00000102#32) ∧
    decode [0x00010005#32] = .error (.rsvNonzero 0x00010005#32) ∧
    decode [0xFFFFFFFF#32] = .error (.rsvNonzero 0xFFFFFFFF#32) := by decide
/-- Program 4, before the host's second line arrives. -/
theorem test_decode_waits : decode [0x00000003#32, 0x00000005#32, 0x00000061#32] = .error (.waiting 1) := by decide
theorem test_encode : encode (.add 5#32 apple) = [0x00000002#32, 0x00000005#32, 0x6C707061#32, 0x00000065#32] ∧
    encode (.rdcsr 0x03#8) = [0x00000305#32] := by decide
/-- Each row of spec/opcode_table.json, its operand words zero. -/
theorem test_table_words :
    decodeTableWord 32 1 = some (.cfg 0#32 0#32 0#32 0#32) ∧ decodeTableWord 32 2 = some (.add 0#32 []) ∧
    decodeTableWord 32 3 = some (.qry 0#32 []) ∧ decodeTableWord 32 4 = some (.hash 0#32 0#32 []) ∧
    decodeTableWord 32 0x305 = some (.rdcsr 0x03#8) ∧ decodeTableWord 32 6 = none := by decide
theorem test_fetch_words :
    step (State.reset.withFetchWord 32 4) = exec (.hash 0#32 0#32 []) { State.reset with pos := 3 } ∧
    step (State.reset.withFetchWord 32 0x305) = exec (.rdcsr 0x03#8) { State.reset with pos := 1 } := ⟨rfl, rfl⟩

/-! ## HASH (95_test_vectors section 2) -/

theorem test_hash_apple : answers (step (withWords [0x00000004#32, 0x0000002A#32, 0x00000005#32, 0x6C707061#32,
    0x00000065#32] .reset)) = some [0x00000400#32, 0xE8978B9D#32] := by decide +kernel
theorem test_hash_bytes_unsigned : hash [0x80#8, 0x80#8, 0x80#8, 0x80#8, 0x80#8] 0#32 = 0x5FAFFFEC#32 ∧
    hash [0x21#8, 0x43#8, 0x65#8] 0#32 = 0x7E4A8634#32 ∧ hash [0x21#8, 0x43#8, 0x65#8, 0x87#8] 0x5082EDEE#32 = 0x2362F9DE#32 := by
  decide +kernel
/-- Section 2.2. -/
theorem test_stages : scr 0x656C7070#32 = 0x8434CD5B#32 ∧ acc 0xFFFFFFFF#32 0#32 = 0xE6546B5F#32 ∧
    fmix 0x80000000#32 = 0x6D3C65A0#32 := by decide +kernel

/-! ## CFG (95_test_vectors section 3, 41_config R151) -/

theorem test_cfg_1000 : nextState (step (withWords cfg1000 .reset)) =
    some { filter1000 with pos := 5, rsp := [0x00000100#32, 0x00002572#32] } := by decide +kernel
/-- A CFG of a configured block changes `LASTERR` only. -/
theorem test_cfg_twice : nextState (exec (.cfg 1000#32 0x47AE147B#32 0x3F847AE1#32 42#32) filterWrap) =
    some { filterWrap with lastErr := 0x00000102#32, rsp := [0x00000102#32, 0x00000001#32] } := by decide +kernel
theorem test_sizing_m :
    [(100, 0x3F847AE147AE147B#64), (3, 0x3FD3333333333333#64), (1, 0x3FEFFFFFFFFFFFFF#64), (1, 0x1#64),
      (11629079, 0x3FE0000000000000#64), (2147483647, 0x1#64)].map (fun c => sizingM c.1 c.2) =
    [959, 8, 1, 1550, 16777215, 3327428144503] := by decide +kernel
theorem test_sizing_k :
    [(100, 959), (3, 8), (1, 1), (1, 1550), (1000, 1443), (7, 101)].map (fun c => sizingK c.1 c.2) =
    [7, 2, 1, 1074, 1, 10] := by decide +kernel

/-! ## ADD and QRY (95_test_vectors sections 4 to 8) -/

theorem test_add_apple : cellsSet (step (withWords [0x00000002#32, 0x00000005#32, 0x6C707061#32, 0x00000065#32] filter1000)) =
    some [2259, 3535, 5430, 5552, 5938, 5998, 9377] := by decide +kernel
/-- Program 3 step 8: lane seeds wrap around. -/
theorem test_add_wraps : cellsSet (exec (.add 1#32 keyA) filterWrap) = some [0, 4, 6, 8, 9] := by decide +kernel
/-- Program 2 step 4. -/
theorem test_qry_a : answers (step (withWords [0x00000003#32, 0x00000001#32, 0x00000061#32] filter48)) =
    some [0x00000300#32, 0x00000001#32] := by decide +kernel
/-- Section 5 line 20. -/
theorem test_qry_too_long : answers (step (withWords [0x00000003#32, 0x00000009#32, 0x11111111#32, 0x22222222#32,
    0x00000033#32] shortKeys)) = some [0x00000303#32, 0x00000009#32] := by decide +kernel
/-- R162 at the patterns around the sign bit: `HV = 80000000` reduces `2^31`, no 32-bit wrap of the absolute value. -/
theorem test_index_corner : reduceIndex 0x80000000#32 9586#32 = 2 ^ 31 % 9586 ∧
    reduceIndex 0x80000001#32 9586#32 = (2 ^ 31 - 1) % 9586 ∧ reduceIndex 0xFFFFFFFF#32 9586#32 = 1 := by decide +kernel

/-! ## RDCSR, errors and the halt (95_test_vectors section 5) -/

theorem test_rdcsr_keymax : answers (step (withWords [0x00000605#32] .reset)) = some [0x00000500#32, 0x00001000#32] := by
  decide +kernel
theorem test_rdcsr_unmapped : nextState (step (withWords [0x00000805#32] .reset)) =
    some { State.reset with pos := 1, lastErr := 0x00000504#32, rsp := [0x00000504#32, 0x00000008#32] } := by
  decide +kernel
/-- Line 23: the `LEN` word is not taken. -/
theorem test_illegal_header : nextState (step (withWords [0x00000102#32, 0x00000001#32] .reset)) =
    some { State.reset with
      pos := 1, cmd := [0x00000001#32], lastErr := 0x00000205#32, halted := true
      rsp := [0x00000205#32, 0x00000102#32] } := by decide +kernel
/-- Line 26. -/
theorem test_halted : step stopped = .fault .halted ∧ cmdReady stopped = false ∧ haltedPin stopped = true := ⟨rfl, rfl, rfl⟩
/-- Program 4: the missing word is taken from the host's next command. -/
theorem test_framing : nextState (step (withWords [0x00000003#32, 0x00000005#32, 0x00000061#32] filter48)) =
      some { filter48 with taken := [0x00000003#32, 0x00000005#32, 0x00000061#32], pos := 3 } ∧
    (nextState (step { filter48 with
      taken := [0x00000003#32, 0x00000005#32, 0x00000061#32]
      cmd := [0x00000003#32, 0x00000001#32, 0x00000063#32] })).map (fun t => (t.rsp, t.cmd)) =
      some ([0x00000300#32, 0#32], [0x00000001#32, 0x00000063#32]) := by decide +kernel

/-! ## The notation (30_encoding R98 to R102) -/

theorem test_line_cfg : lineWords "CFG 1000, 0.01, 42 ; the source's scenario".toList = some cfg1000 := by decide +kernel
theorem test_line_key : lineWords "ADD \"apple\"".toList =
      some [0x00000002#32, 0x00000005#32, 0x6C707061#32, 0x00000065#32] ∧
    lineWords "HASH x\"21 43 65 87\", 0".toList = some [0x00000004#32, 0#32, 0x00000004#32, 0x87654321#32] := by
  decide +kernel
theorem test_line_pseudo : lineWords "RDK".toList = some [0x00000305#32] ∧
    lineWords "MIGHTCONTAIN \"grape\"".toList = lineWords "QRY \"grape\"".toList := by decide +kernel
/-- Log 14: a decimal literal above the largest finite value stands for the pattern of infinity, and the largest finite
value for itself. -/
theorem test_rate_overflow : rateLitPattern (.decimal false (2 ^ 1024) 0) = 0x7FF0000000000000#64 ∧
    rateLitPattern (.decimal true (10 ^ 400) 0) = 0xFFF0000000000000#64 ∧
    rateLitPattern (.decimal false (2 ^ 1024 - 2 ^ 971) 0) = 0x7FEFFFFFFFFFFFFF#64 := by decide +kernel
/-- The literals of 95_test_vectors section 3. -/
theorem test_rate_literals :
    [("0.1".toList, 0x3FB999999999999A#64), ("0.001".toList, 0x3F50624DD2F1A9FC#64), ("1.5".toList, 0x3FF8000000000000#64),
      ("-0.01".toList, 0xBF847AE147AE147B#64), ("-0.0".toList, 0x8000000000000000#64),
      ("0x3FEFFFFFFFFFFFFF".toList, 0x3FEFFFFFFFFFFFFF#64)].all
        (fun c => (readRate c.1).map rateLitPattern == some c.2) = true := by decide +kernel

/-! ## Reset -/

theorem test_reset_memory_wf : Memory.wf State.reset.bits = true := by decide
theorem test_reset_registers : [0x00#8, 0x01#8, 0x02#8, 0x03#8, 0x04#8, 0x05#8, 0x06#8, 0x07#8].map
      (fun a => csrRead a State.reset) =
    [some 0x4D334246#32, some 0#32, some 0#32, some 0#32, some 0#32, some 0#32, some 4096#32, some 16777216#32] := by
  decide

/-- A reset in the middle of a command with words on offer: both streams are emptied. -/
theorem test_reset_empties_streams : nextState (step (raiseRst { filter48 with
    taken := [0x00000002#32], cmd := [0x00000001#32, 0x00000061#32], pos := 1, rsp := [0#32] })) = some State.reset := by
  decide +kernel

/-! ## Witnesses: for each statement with hypotheses, a state and operands that meet them all -/

theorem witness_DecodeEncodeRoundTrip : (Instr.cfg 0#32 0#32 0#32 0#32).wf = true ∧ (Instr.add 5#32 apple).wf = true ∧
    (Instr.qry 0#32 []).wf = true ∧ (Instr.hash 0#32 5#32 apple).wf = true ∧ (Instr.rdcsr 0xFF#8).wf = true := by decide

theorem witness_DecoderTakesCmdLenWords :
    decode [0x00000003#32, 0x00000000#32, 0x00000305#32] = .ok (.qry 0#32 [], [0x00000305#32]) ∧
    decode [0x00000004#32, 1#32, 1#32, 0xFFFFFF21#32] = .ok (.hash 1#32 1#32 [0x21#8], []) := by decide

/-- Legal and illegal headers at the edges of R97's list, and a running block before an illegal one. -/
theorem witness_HeaderLegalIffTableRow : legalHeader 0x00000001#32 ∧ legalHeader 0x00000004#32 ∧
    legalHeader 0x00000005#32 ∧ legalHeader 0x0000FF05#32 ∧ ¬ legalHeader 0x00000000#32 ∧ ¬ legalHeader 0x00000006#32 ∧
    ¬ legalHeader 0x00010005#32 ∧ ¬ legalHeader 0xFFFFFFFF#32 := by
  unfold legalHeader
  decide +kernel

theorem witness_IllegalHeaderHaltsTheBlock :
    let s := withWords [0x00000102#32, 0x00000001#32] filter48
    running s ∧ s.taken = [] ∧ s.cmd = [0x00000102#32, 0x00000001#32] ∧ ¬ legalHeader 0x00000102#32 :=
  ⟨⟨rfl, rfl, rfl⟩, rfl, rfl, by unfold legalHeader; decide +kernel⟩

theorem witness_PayloadBytePacking : ((5#32).toNat + 3) / 4 ≤ [0x6C707061#32, 0x00000065#32].length ∧
    ((0#32).toNat + 3) / 4 ≤ ([] : List Word).length := by decide

theorem witness_UnusedPayloadBytesAreIgnored :
    [0x6C707061#32, 0x00000065#32].length = ((5#32).toNat + 3) / 4 ∧
    [0x6C707061#32, 0xDEADBE65#32].length = ((5#32).toNat + 3) / 4 ∧
    ∀ a < (5#32).toNat,
      payloadByte [0x6C707061#32, 0x00000065#32] a = payloadByte [0x6C707061#32, 0xDEADBE65#32] a := by
  decide +kernel

/-- A whole command at hand: all of it offered, and the rest of one already begun. -/
theorem witness_StepRunsTheDecodedCommand :
    (running (withWords addA filter48) ∧ decode ([] ++ addA) = .ok (.add 1#32 keyA, [])) ∧
    let s := { filter48 with taken := [0x00000002#32], cmd := [0x00000001#32, 0x00000061#32, 0x00000305#32], pos := 1 }
    running s ∧ decode (s.taken ++ s.cmd) = .ok (.add 1#32 keyA, [0x00000305#32]) :=
  ⟨⟨⟨rfl, rfl, rfl⟩, by decide⟩, ⟨rfl, rfl, rfl⟩, by decide⟩

/-- `filter48` in the middle of `ADD "a"`. -/
def midAdd : State :=
  { filter48 with taken := [0x00000002#32], cmd := [0x00000001#32, 0x00000061#32], pos := 1 }

theorem inv_midAdd : midAdd.Inv := inv_of_check (by decide +kernel)
theorem inv_reset : State.reset.Inv := inv_of_check (by decide +kernel)
theorem inv_filter48 : filter48.Inv := inv_of_check (by decide +kernel)
theorem inv_filterWrap : filterWrap.Inv := inv_of_check (by decide +kernel)
theorem inv_shortKeys : shortKeys.Inv := inv_of_check (by decide +kernel)
theorem inv_stopped : stopped.Inv := inv_of_check (by decide +kernel)
theorem inv_twoWords : twoWords.Inv := inv_of_check (by decide +kernel)

theorem step_midAdd : step midAdd = .next
    { filter48 with taken := [], cmd := [], pos := 3, rsp := [0x00000200#32, 0#32] } :=
  next_of (by decide +kernel)

theorem witness_PositionAdvancesByCmdLen : midAdd.Inv ∧ running midAdd ∧
    decode (midAdd.taken ++ midAdd.cmd) = .ok (.add 1#32 keyA, []) ∧ ∃ t, step midAdd = .next t :=
  ⟨inv_midAdd, ⟨rfl, rfl, rfl⟩, by decide, _, step_midAdd⟩

/-- A command with one payload word still to come, and a stream with no word at all. -/
theorem witness_IncompleteCommandWaits :
    running (withWords [0x00000003#32, 0x00000005#32, 0x00000061#32] filter48) ∧
    decode ([] ++ [0x00000003#32, 0x00000005#32, 0x00000061#32]) = .error (.waiting 1) ∧
    running filter48 ∧ cmdValid filter48 = false ∧ decode (filter48.taken ++ filter48.cmd) = .error (.waiting 1) :=
  ⟨⟨rfl, rfl, rfl⟩, by decide, ⟨rfl, rfl, rfl⟩, rfl, by decide⟩

theorem witness_FramingIgnoresHowWordsArrive :
    let s := withWords [0x00000003#32, 0x00000005#32, 0x00000061#32] filter48
    running s ∧ decode (s.taken ++ s.cmd) = .error (.waiting 1) ∧
      step s = .next { filter48 with taken := [0x00000003#32, 0x00000005#32, 0x00000061#32], pos := 3 } :=
  ⟨⟨rfl, rfl, rfl⟩, by decide, next_of (by decide +kernel)⟩

theorem witness_HaltStaysUntilReset : stopped.halted = true ∧
    Evolves stopped { stopped with cmd := addA, rsp := [0#32] } :=
  ⟨rfl, (Evolves.refl.offer addA).takeRsp (w := 0x00000005#32) rfl⟩

theorem witness_ResetGivesTheResetValues : (raiseRst midAdd).rst = true ∧ (raiseRst stopped).rst = true := ⟨rfl, rfl⟩

/-- One word held in a buffer of two: no room for a response. -/
theorem witness_FullResponseBufferHoldsTheBlock :
    let s := { twoWords with cmd := addA, rsp := [0#32] }
    s.rst = false ∧ s.halted = false ∧ (∃ d, s.par.rspDepth = some d ∧ d < s.rsp.length + 2) ∧
      takeRsp s = some (0#32, { s with rsp := [] }) :=
  ⟨rfl, rfl, ⟨2, rfl, by decide⟩, rfl⟩

theorem witness_ResetStateIsGood : Params.reference.wf = true ∧
    (Params.mk 0#32 1#32 (some 2)).wf = true := by decide

/-- The kinds of step: a command, a wait, a reset, an illegal header. -/
theorem witness_StepKeepsTheInvariant :
    (midAdd.Inv ∧ ∃ t, step midAdd = .next t) ∧ (filter48.Inv ∧ ∃ t, step filter48 = .next t) ∧
    ((raiseRst stopped).Inv ∧ ∃ t, step (raiseRst stopped) = .next t) ∧
    (withWords [0x00000006#32] twoWords).Inv ∧ ∃ t, step (withWords [0x00000006#32] twoWords) = .next t :=
  ⟨⟨inv_midAdd, _, step_midAdd⟩, ⟨inv_filter48, _, rfl⟩, ⟨inv_of_check (by decide +kernel), _, rfl⟩,
    inv_of_check (by decide +kernel), _, rfl⟩

theorem witness_HostMovesKeepTheInvariant : stopped.Inv ∧ takeRsp stopped = some (5#32, { stopped with rsp := [0#32] }) :=
  ⟨inv_stopped, rfl⟩

/-- A block of other parameters that has taken an illegal header, sent in two moves with a reset between. -/
theorem witness_ReachableStatesAreGood : (Params.mk 8#32 48#32 (some 2)).wf = true ∧
    ∃ s, s.halted = true ∧ Reachable (Params.mk 8#32 48#32 (some 2)) s :=
  ⟨by decide, _, rfl, ((Reachable.reset.raiseRst.step rfl).offer [0x00000006#32]).step rfl⟩

theorem witness_OnlyTheHaltStopsAGoodState : filter48.Inv ∧ stopped.Inv ∧ stopped.rst = false :=
  ⟨inv_filter48, inv_stopped, rfl⟩

theorem witness_CompleteCommandIsAnswered : midAdd.Inv ∧ running midAdd ∧
    decode (midAdd.taken ++ midAdd.cmd) = .ok (.add 1#32 keyA, []) :=
  ⟨inv_midAdd, ⟨rfl, rfl, rfl⟩, by decide⟩

/-- `filter48` evolves by an ADD of `"b"` (program 2 step 5). -/
theorem evolves_filter48 : Evolves filter48
    { filter48 with
      pos := 3, rsp := [0x00000200#32, 0#32]
      bits := [(2, 1#1), (22, 1#1), (24, 1#1), (29, 1#1), (39, 1#1)] } :=
  (Evolves.refl.offer [0x00000002#32, 0x00000001#32, 0x00000062#32]).step rfl (next_of (by decide +kernel))

theorem witness_FilterRegistersAreImmutable : filter48.cfgd = true ∧ ∃ t, t ≠ filter48 ∧ Evolves filter48 t :=
  ⟨rfl, _, by decide, evolves_filter48⟩

theorem witness_SetCellsStaySet : filter48.Inv ∧ filter48.cfgd = true ∧ Memory.read filter48.bits 2 = 1#1 ∧
    ∃ t, t ≠ filter48 ∧ Evolves filter48 t :=
  ⟨inv_filter48, rfl, rfl, _, by decide, evolves_filter48⟩

/-- `ADD "a"`, then `ADD "b"` before the QRY. -/
theorem witness_NoFalseNegatives : filter48.Inv ∧
    exec (.add 1#32 keyA) filter48 = .next { filter48 with rsp := [] ++ [0x00000200#32, 0#32] } ∧
    Evolves { filter48 with rsp := [0x00000200#32, 0#32] }
      { filter48 with
        pos := 3, rsp := [0x00000200#32, 0#32, 0x00000200#32, 0#32]
        bits := [(2, 1#1), (22, 1#1), (24, 1#1), (29, 1#1), (39, 1#1)] } :=
  ⟨inv_filter48, next_of (by decide +kernel),
    (Evolves.refl.offer [0x00000002#32, 0x00000001#32, 0x00000062#32]).step rfl (next_of (by decide +kernel))⟩

/-- The transitions of R43: reset, a CFG answered `OK`, an illegal header. -/
theorem witness_LifecycleTransitions :
    ((raiseRst stopped).rst = true ∧ ∃ t, step (raiseRst stopped) = .next t) ∧
    (running (withWords cfg1000 .reset) ∧ decode ([] ++ cfg1000) = .ok (.cfg 1000#32 0x47AE147B#32 0x3F847AE1#32 42#32, []) ∧
      step (withWords cfg1000 .reset) = .next { filter1000 with pos := 5, rsp := [] ++ [0x00000100#32, 0x00002572#32] }) ∧
    running (withWords [0x00000006#32] filter48) ∧
      decode ([] ++ [0x00000006#32]) = .error (.noSuchOpcode 0x00000006#32) ∧
      (Reject.noSuchOpcode 0x00000006#32).illegalHeader = some 0x00000006#32 ∧
      ∃ t, step (withWords [0x00000006#32] filter48) = .next t ∧ lifecycle t ≠ lifecycle filter48 :=
  ⟨⟨rfl, _, rfl⟩, ⟨⟨rfl, rfl, rfl⟩, by decide, next_of test_cfg_1000⟩, ⟨rfl, rfl, rfl⟩, by decide, rfl, _, rfl, by decide⟩

/-- A step that writes `M`, `K`, `SEED` and `CFGD`, one that writes `LASTERR`, one that writes `HALTED`. -/
theorem witness_WhoWritesTheRegisters :
    (State.reset.rst = false ∧ ∃ t, step (withWords cfg1000 .reset) = .next t ∧ t.m ≠ 0#32 ∧ t.cfgd ≠ false) ∧
    (∃ t, step (withWords [0x00000805#32] .reset) = .next t ∧ t.lastErr ≠ 0#32) ∧
    ∃ t, step (withWords [0x00000006#32] .reset) = .next t ∧ t.halted ≠ false :=
  ⟨⟨rfl, _, next_of test_cfg_1000, by decide, by decide⟩, ⟨_, next_of test_rdcsr_unmapped, by decide⟩, _, rfl, by decide⟩

theorem step_add_filter48 : exec (.add 1#32 keyA) filter48 = .next { filter48 with rsp := [0x00000200#32, 0#32] } :=
  next_of (by decide +kernel)

theorem witness_OneResponsePerCommand :
    (∃ t, exec (.cfg 0#32 0#32 0#32 0#32) .reset = .next t) ∧ (∃ t, exec (.add 1#32 keyA) filter48 = .next t) ∧
    (∃ t, exec (.qry 1#32 keyA) .reset = .next t) ∧ (∃ t, exec (.hash 0#32 1#32 keyA) .reset = .next t) ∧
    ∃ t, exec (.rdcsr 0x08#8) .reset = .next t :=
  ⟨⟨_, rfl⟩, ⟨_, step_add_filter48⟩, ⟨_, rfl⟩, ⟨_, rfl⟩, _, rfl⟩

theorem witness_LasterrRecordsErrorResponses :
    ((raiseRst stopped).rst = true ∧ ∃ t, step (raiseRst stopped) = .next t) ∧
    ∃ t, step (withWords [0x00000805#32] .reset) = .next t ∧ t.lastErr = 0x00000504#32 :=
  ⟨⟨rfl, _, rfl⟩, _, next_of test_rdcsr_unmapped, rfl⟩

/-- Each clause at the edges of its range: a configured block; `n` of `-2^31` and 0; the patterns 0 and
`0x3FF0000000000000`, and all ones. -/
theorem witness_CfgRejectsInvalidOperands : filter48.cfgd = true ∧ State.reset.cfgd = false ∧
    (0x80000000#32).toInt ≤ 0 ∧ (0#32).toInt ≤ 0 ∧ 0 < (1#32).toInt ∧ (0#32 ++ 0#32 : BitVec 64).toNat = 0 ∧
    0x3FF0000000000000 ≤ (0x3FF00000#32 ++ 0#32).toNat ∧ 0x3FF0000000000000 ≤ (0xFFFFFFFF#32 ++ 0xFFFFFFFF#32).toNat := by
  decide +kernel

/-- `CFG 11629080, 0.5, 0`, just over `M_MAX`. -/
theorem witness_CfgRejectsSizesThatDoNotFit : State.reset.cfgd = false ∧ 0 < (11629080#32).toInt ∧
    0 < (0x3FE00000#32 ++ 0#32).toNat ∧ (0x3FE00000#32 ++ 0#32).toNat < 0x3FF0000000000000 ∧
    State.reset.par.mMax.toNat < ⌈sizeReal (11629080#32).toNat (0x3FE00000#32 ++ 0#32)⌉₊ := by
  rw [← Laws.sizingM_eq_ceil (by decide +kernel)]
  decide +kernel

/-- Each clause: no Filter, a Filter, a HASH and an RDCSR that answer. -/
theorem witness_StateErrorsByLifecycle : State.reset.cfgd = false ∧ filter48.cfgd = true ∧
    (∃ t, exec (.hash 0#32 0#32 []) .reset = .next t) ∧ ∃ t, exec (.rdcsr 0x01#8) .reset = .next t :=
  ⟨rfl, rfl, ⟨_, rfl⟩, _, rfl⟩

/-- `LEN` one above `KEY_MAX`, and the largest `KEY_MAX`. -/
theorem witness_LongKeysAreRefused : shortKeys.par.keyMax.toNat < (9#32).toNat ∧ shortKeys.cfgd = true ∧
    ({ shortKeys with par := { Params.reference with keyMax := 0xFFFFFFFF#32 } } : State).par.keyMax.toNat = 2 ^ 32 - 1 := by
  decide

/-- `CFG 1000, 0.01, 42`, the smallest pattern and the largest. -/
theorem witness_CfgConstructsTheFilter : State.reset.cfgd = false ∧
    (0 < (1000#32).toInt ∧ ValidOperands (1000#32).toNat (0x3F847AE1#32 ++ 0x47AE147B#32) ∧
      ⌈sizeReal (1000#32).toNat (0x3F847AE1#32 ++ 0x47AE147B#32)⌉₊ ≤ State.reset.par.mMax.toNat) ∧
    (ValidOperands (1#32).toNat (0#32 ++ 1#32) ∧
      ⌈sizeReal (1#32).toNat (0#32 ++ 1#32)⌉₊ ≤ State.reset.par.mMax.toNat) ∧
    ValidOperands (1#32).toNat (0x3FEFFFFF#32 ++ 0xFFFFFFFF#32) ∧
      ⌈sizeReal (1#32).toNat (0x3FEFFFFF#32 ++ 0xFFFFFFFF#32)⌉₊ ≤ State.reset.par.mMax.toNat := by
  rw [← Laws.sizingM_eq_ceil (by decide +kernel), ← Laws.sizingM_eq_ceil (by decide +kernel),
    ← Laws.sizingM_eq_ceil (by decide +kernel)]
  decide +kernel

theorem witness_BitArraySizeIsExact : ValidOperands 1 1#64 ∧ ValidOperands 2147483647 0x3FEFFFFFFFFFFFFF#64 := by decide

/-- The operands of the sizing statements at both ends of each range, and operands far from an integer:
`x = 1 / ln 2` for `n = 1`, `p = 1/2`. -/
theorem witness_FirstEnclosureIsTight : ValidOperands 1 1#64 ∧ ValidOperands 2147483647 0x3FEFFFFFFFFFFFFF#64 ∧
    ValidOperands 1 0x3FE0000000000000#64 ∧
    ∀ q : ℤ, 2 ^ (-100 : ℤ) ≤ |sizeReal 1 0x3FE0000000000000#64 - q| := by
  refine ⟨by decide, by decide, by decide, fun q => ?_⟩
  have hp : rateReal 0x3FE0000000000000#64 = 1 / 2 := by
    simp only [rateReal]
    norm_num
  have hlo : 0.69 < Real.log 2 := by linarith [Real.log_two_gt_d9]
  have hhi : Real.log 2 < 0.7 := by linarith [Real.log_two_lt_d9]
  have hx : sizeReal 1 0x3FE0000000000000#64 = 1 / Real.log 2 := by
    rw [sizeReal, hp, one_div, Real.log_inv]
    field_simp
    norm_num
  have h1 : 1.4 < sizeReal 1 0x3FE0000000000000#64 := by
    rw [hx, lt_div_iff₀ (by linarith)]; linarith
  have h2 : sizeReal 1 0x3FE0000000000000#64 < 1.5 := by
    rw [hx, div_lt_iff₀ (by linarith)]; linarith
  have h3 : (2 : ℝ) ^ (-100 : ℤ) ≤ 0.4 := by norm_num
  refine h3.trans (le_abs.2 ?_)
  rcases le_or_gt q 1 with h | h
  · have : (q : ℝ) ≤ 1 := by exact_mod_cast h
    left; linarith
  · have : (2 : ℝ) ≤ q := by exact_mod_cast h
    right; linarith

/-- The enclosure admits one integer for operands of R151. -/
theorem test_enclosure : sizingMLo sizingBits 1000 0x3F847AE147AE147B#64 = sizingMHi sizingBits 1000 0x3F847AE147AE147B#64 ∧
    sizingMLo sizingBits 1 0x3FEFFFFFFFFFFFFF#64 = sizingMHi sizingBits 1 0x3FEFFFFFFFFFFFFF#64 := by decide +kernel

theorem witness_SizingExact : ValidOperands 1 1#64 ∧ ValidOperands 2147483647 0x3FEFFFFFFFFFFFFF#64 := by decide

theorem witness_HashCountIsExact : 1 ≤ 2147483647 ∧ 2147483647 < 2 ^ 31 ∧ 1 ≤ 3327428144503 ∧ 3327428144503 < 2 ^ 42 := by
  decide

theorem witness_HashCountIsBounded : ValidOperands 1 1#64 ∧ ValidOperands 2147483647 1#64 := by decide

theorem witness_AcceptedOperandsGiveACell : ValidOperands 1 0x3FEFFFFFFFFFFFFF#64 ∧ ValidOperands 2147483647 1#64 := by
  decide

/-- A key as long as `KEY_MAX` allows, a cell of the key and a cell that is not one of its. -/
theorem witness_AddSetsExactlyItsCells : shortKeys.Inv ∧ shortKeys.cfgd = true ∧
    (8#32).toNat ≤ shortKeys.par.keyMax.toNat ∧ inCells shortKeys keyA 2 ∧ ¬ inCells shortKeys keyA 3 := by
  refine ⟨inv_shortKeys, rfl, by decide, ⟨0, by decide, by decide +kernel⟩, ?_⟩
  unfold inCells
  decide +kernel

/-- `QRY "a"` finds all its cells set; `QRY "b"` does not. -/
theorem witness_QryAnswersWhetherAllCellsAreSet : filter48.Inv ∧ filter48.cfgd = true ∧
    (1#32).toNat ≤ filter48.par.keyMax.toNat ∧ (∀ a, inCells filter48 keyA a → Memory.read filter48.bits a = 1#1) ∧
    ¬ ∀ a, inCells filter48 [0x62#8] a → Memory.read filter48.bits a = 1#1 := by
  refine ⟨inv_filter48, rfl, by decide, ?_, fun h => ?_⟩
  · rintro a ⟨i, hi, rfl⟩
    revert i
    decide +kernel
  · have := h 29 ⟨0, by decide, by decide +kernel⟩
    revert this
    decide

theorem witness_IndexIsInRange : 1 ≤ filter48.m.toNat ∧ 1 ≤ (1#32).toNat := by decide

theorem witness_LaneSeedsWrapAndDiffer : filterWrap.k.toNat ≤ 1075 ∧ 0 < filterWrap.k.toNat ∧ 6 < filterWrap.k.toNat ∧
    (laneSeed filterWrap 2).toNat = 0 := by decide

/-- Two keys, and the same keys in the other order with one of them twice. -/
theorem witness_AddsSetTheUnion : filter48.Inv ∧ filter48.cfgd = true ∧
    (∀ d ∈ [(5#32, apple), (1#32, keyA)], d.1.toNat ≤ filter48.par.keyMax.toNat) ∧
    ∀ d, d ∈ [(1#32, keyA), (5#32, apple), (1#32, keyA)] ↔ d ∈ [(5#32, apple), (1#32, keyA)] :=
  ⟨inv_filter48, rfl, by decide, fun d => by simp only [List.mem_cons, List.not_mem_nil, or_false]; tauto⟩

theorem witness_AccessOrderDoesNotMatter : filter48.Inv ∧ filter48.cfgd = true ∧
    ∀ i, i ∈ [2, 0, 1, 0] ↔ i < filter48.k.toNat :=
  ⟨inv_filter48, rfl, fun i => by
    have : filter48.k.toNat = 3 := rfl
    simp only [List.mem_cons, List.not_mem_nil, or_false, this]
    omega⟩

theorem witness_LanesInRoundsAgree : 1 ≤ 1 ∧ filterWrap.Inv ∧ filterWrap.cfgd = true ∧
    (5#32).toNat ≤ filterWrap.par.keyMax.toNat :=
  ⟨le_rfl, inv_filterWrap, rfl, by decide⟩

/-- Data of `KEY_MAX` bytes, and of one more. -/
theorem witness_HashAnswersTheHash : (4096#32).toNat ≤ State.reset.par.keyMax.toNat ∧
    State.reset.par.keyMax.toNat < (4097#32).toNat := by decide

theorem witness_LaneContentBeforeDoesNotMatter : filter48.Inv ∧ filter48.cfgd = true := ⟨inv_filter48, rfl⟩

/-- A HASH, an ADD, the same HASH again. -/
theorem witness_HashIsDeterministic :
    let s' := { filter48 with rsp := [0x00000400#32, hash keyA 1#32] }
    let t := { s' with pos := 3, rsp := s'.rsp ++ [0x00000200#32, 0#32] }
    exec (.hash 1#32 1#32 keyA) filter48 = .next s' ∧ Evolves s' t ∧ ∃ t', exec (.hash 1#32 1#32 keyA) t = .next t' :=
  ⟨rfl, (Evolves.refl.offer addA).step rfl (next_of (by decide +kernel)), _, rfl⟩

theorem witness_RdcsrReadsTheMap : (0x00#8).toNat ≤ 0x07 ∧ (0x07#8).toNat ≤ 0x07 ∧ 0x07 < (0x08#8).toNat ∧
    0x07 < (0xFF#8).toNat := by decide

/-- A hex byte string, a text, and a literal that stands for a pattern. -/
theorem witness_AssembledLinesAreCommands :
    rateLitPattern (.decimal false 5 1) = 0x3FE0000000000000#64 ∧ utf8Bytes ['a', 'p'] = [0x61#8, 0x70#8] ∧
    [0x21#8, 0x43#8].length < 2 ^ 32 := by decide +kernel

theorem witness_AsciiTextKeys : ∀ c ∈ ['a', 'p', '~'], c.toNat < 128 := by simp

end Sys2Proof.Tests
end

section
/-! PROOFS. The decoder's parts that the statements about the state lean on: which word a decoded command or a
rejection comes from (R83, R97). -/

namespace Sys2Proof.Proofs

open Sys2Proof.Laws

/-- Format C is rejected only for want of words (R85). -/
theorem decodeC_error {ws : List Word} {e : Reject} (h : decodeC ws = .error e) : ∃ owed, e = .waiting owed := by
  unfold decodeC at h
  split at h <;> cases h
  exact ⟨_, rfl⟩

/-- Format K is rejected only for want of words (R86). -/
theorem decodeK_error {mk : Word → List Byte → Instr} {ws : List Word} {e : Reject}
    (h : decodeK mk ws = .error e) : ∃ owed, e = .waiting owed := by
  unfold decodeK at h
  split at h
  · split at h <;> cases h
    exact ⟨_, (takePayload_error ‹_›).2⟩
  · cases h
    exact ⟨1, rfl⟩

/-- Format H is rejected only for want of words (R87). -/
theorem decodeH_error {ws : List Word} {e : Reject} (h : decodeH ws = .error e) : ∃ owed, e = .waiting owed := by
  unfold decodeH at h
  split at h
  · split at h <;> cases h
    exact ⟨_, (takePayload_error ‹_›).2⟩
  · cases h
    exact ⟨_, rfl⟩

theorem decodeC_opc {ws rest : List Word} {i : Instr} (h : decodeC ws = .ok (i, rest)) : i.opc = 0x01#8 := by
  unfold decodeC at h
  split at h <;> cases h
  rfl

theorem decodeK_opc {mk : Word → List Byte → Instr} {opc : Byte} (hmk : ∀ len key, (mk len key).opc = opc)
    {ws rest : List Word} {i : Instr} (h : decodeK mk ws = .ok (i, rest)) : i.opc = opc := by
  unfold decodeK at h
  split at h
  · split at h <;> cases h
    exact hmk _ _
  · cases h

theorem decodeH_opc {ws rest : List Word} {i : Instr} (h : decodeH ws = .ok (i, rest)) : i.opc = 0x04#8 := by
  unfold decodeH at h
  split at h
  · split at h <;> cases h
    rfl
  · cases h

/-- A decoded command has the opcode of the word it begins with (R83, R84). -/
theorem decode_ok_opc {ws rest : List Word} {i : Instr} (h : decode ws = .ok (i, rest)) :
    ∃ w ws', ws = w :: ws' ∧ i.opc = opcOf w := by
  cases ws with
  | nil => cases h
  | cons w ws =>
    refine ⟨w, ws, rfl, ?_⟩
    rw [decode] at h
    split_ifs at h with _ h1 _ h2 _ h3 _ h4 _ h5
    · exact (decodeC_opc h).trans h1.symm
    · exact (decodeK_opc (opc := 0x02#8) (fun _ _ => rfl) h).trans h2.symm
    · exact (decodeK_opc (opc := 0x03#8) (fun _ _ => rfl) h).trans h3.symm
    · exact (decodeH_opc h).trans h4.symm
    · cases h
      exact h5.symm

/-- A word stream is rejected for its header, or only for want of words (R97, R208). -/
theorem decode_cons_error {w : Word} {ws : List Word} {e : Reject} (h : decode (w :: ws) = .error e) :
    e.illegalHeader = some w ∨ ∃ owed, e = .waiting owed := by
  rw [decode] at h
  split_ifs at h
  · cases h; exact .inl rfl
  · cases h; exact .inl rfl
  · exact .inr (decodeC_error h)
  · cases h; exact .inl rfl
  · exact .inr (decodeK_error h)
  · cases h; exact .inl rfl
  · exact .inr (decodeK_error h)
  · cases h; exact .inl rfl
  · exact .inr (decodeH_error h)
  · cases h; exact .inl rfl

/-- An illegal header is the first word at hand (R97, R208). -/
theorem decode_illegal_head {ws : List Word} {e : Reject} {w : Word} (h : decode ws = .error e)
    (he : e.illegalHeader = some w) : ∃ ws', ws = w :: ws' := by
  cases ws with
  | nil => cases h; cases he
  | cons w0 ws =>
    rcases decode_cons_error h with h0 | ⟨owed, rfl⟩
    · obtain rfl : w0 = w := Option.some.inj (h0.symm.trans he)
      exact ⟨ws, rfl⟩
    · cases he

end Sys2Proof.Proofs
end

section
/-! PROOFS. What setting cells does to the `BIT` space as a whole (R31, R33). -/

namespace Sys2Proof.Proofs

open Sys2Proof.Machine Sys2Proof.Laws

/-- The addresses of a canonical memory begin at its lower bound. -/
theorem le_fst_of_mem {lo : Nat} {mem : Memory} (h : Memory.wfFrom lo mem = true) {c : Nat × BitVec 1} (hc : c ∈ mem) :
    lo ≤ c.1 := by
  by_contra hlt
  have hread := (mem_iff_readFrom h c.1).1 (snd_eq_one h hc ▸ hc)
  rw [read_below h (by omega)] at hread
  cases hread

/-- A canonical memory lists no cell twice. -/
theorem nodup_of_wfFrom {lo : Nat} {mem : Memory} (h : Memory.wfFrom lo mem = true) : mem.Nodup := by
  induction mem generalizing lo with
  | nil => exact List.nodup_nil
  | cons c t ih =>
    obtain ⟨a, v⟩ := c
    obtain ⟨-, -, ht⟩ := wfFrom_cons.1 h
    exact List.nodup_cons.2 ⟨fun hc => by simpa using le_fst_of_mem ht hc, ih ht⟩

/-- Of two canonical memories, the one in which every set cell of the other is set has at least as many set cells. -/
theorem countSet_le_of_read {mem mem' : Memory} (h : Memory.wf mem = true) (h' : Memory.wf mem' = true)
    (hread : ∀ a, Memory.read mem a = 1#1 → Memory.read mem' a = 1#1) : Memory.countSet mem ≤ Memory.countSet mem' := by
  refine ((nodup_of_wfFrom h).subperm fun c hc => ?_).length_le
  obtain ⟨a, v⟩ := c
  obtain rfl : v = 1#1 := snd_eq_one h hc
  exact (mem_iff_read h' a).2 (hread a ((mem_iff_read h a).1 hc))

/-- Setting cells below a bound keeps all listed cells below it. -/
theorem setList_lt {mem : Memory} (h : Memory.wf mem = true) {as : List Nat} {m : Nat} (hmem : ∀ c ∈ mem, c.1 < m)
    (has : ∀ a ∈ as, a < m) : ∀ c ∈ setList mem as, c.1 < m := by
  rintro ⟨a, v⟩ hc
  obtain rfl : v = 1#1 := snd_eq_one (setList_wf h as) hc
  have hread := (mem_iff_read (setList_wf h as) a).1 hc
  rw [setList_read h] at hread
  split at hread
  · exact has a ‹_›
  · exact hmem _ ((mem_iff_read h a).2 hread)

/-- Setting cells takes no cell from 1 to 0 (R33). -/
theorem setList_keeps_set {mem : Memory} (h : Memory.wf mem = true) (as : List Nat) {a : Nat}
    (ha : Memory.read mem a = 1#1) : Memory.read (setList mem as) a = 1#1 := by
  rw [setList_read h, ha, ite_self]

end Sys2Proof.Proofs
end

section
/-! PROOFS. The hash-function count of every accepted pair of operands is at most 1075 (41_config R145). -/

namespace Sys2Proof.Proofs

open Sys2Proof.Machine Sys2Proof.Laws

/-- The scale of an accepted operand is at most `2^1074`, that of the smallest subnormal pattern (R141). -/
theorem rateParts_scale_le (P : BitVec 64) : (rateParts P).2 ≤ 1074 := by
  simp only [rateParts]
  split
  · exact le_rfl
  · dsimp only
    omega

/-- An accepted operand is at least `2^(-1074)`, so `-ln(p) ≤ 1074 ln 2` (R141, R145). -/
theorem neg_log_rateReal_le {P : BitVec 64} (h0 : 0 < P.toNat) (h1 : P.toNat < 0x3FF0000000000000) :
    -Real.log (rateReal P) ≤ 1074 * Real.log 2 := by
  obtain ⟨heq, hA, -⟩ := rateReal_eq h0 h1
  have hA1 : (1 : ℝ) ≤ (rateParts P).1 := by exact_mod_cast Nat.pos_of_ne_zero hA
  have hlogA : 0 ≤ Real.log (rateParts P).1 := Real.log_nonneg hA1
  have hs : ((rateParts P).2 : ℝ) ≤ 1074 := by exact_mod_cast rateParts_scale_le P
  have hmul := mul_le_mul_of_nonneg_right hs (Real.log_nonneg one_le_two)
  rw [heq, Real.log_div (by positivity) (by positivity), Real.log_pow]
  linarith

/-- The real size is at most `1074 n / ln 2` (R143, R145). -/
theorem sizeReal_mul_log_two_le {n : Nat} {P : BitVec 64} (hv : ValidOperands n P) :
    sizeReal n P * Real.log 2 ≤ 1074 * n := by
  obtain ⟨-, -, h0, h1⟩ := hv
  have hln : 0 < Real.log 2 := Real.log_pos one_lt_two
  calc sizeReal n P * Real.log 2 = n * -Real.log (rateReal P) / Real.log 2 := by
        rw [sizeReal]
        field_simp
    _ ≤ n * (1074 * Real.log 2) / Real.log 2 := by
        gcongr
        exact neg_log_rateReal_le h0 h1
    _ = 1074 * n := by
        field_simp

/-- The computed size exceeds the real one by less than 1 (R143), so `2 m ln 2 < 2151 n` (R145). -/
theorem sizingM_mul_log_two_lt {n : Nat} {P : BitVec 64} (hv : ValidOperands n P) :
    2 * sizingM n P * Real.log 2 < 2151 * n := by
  have hln : 0 < Real.log 2 := Real.log_pos one_lt_two
  have hn : (1 : ℝ) ≤ n := by exact_mod_cast hv.1
  have hx : 0 ≤ sizeReal n P := by
    have := (negLn_enclosed 0 hv.2.2.1 hv.2.2.2).1
    rw [sizeReal, ← mul_neg]
    positivity
  have hm : (sizingM n P : ℝ) < sizeReal n P + 1 := by
    rw [sizingM_eq_ceil hv]
    exact Nat.ceil_lt_add_one hx
  have hml := mul_lt_mul_of_pos_right hm hln
  have hxl := sizeReal_mul_log_two_le hv
  have hln1 := Real.log_two_lt_d9
  linarith

/-- The computed count is between 1 and 1075 (R145). -/
theorem sizingK_bounds {n : Nat} {P : BitVec 64} (hv : ValidOperands n P) :
    1 ≤ sizingK n (sizingM n P) ∧ sizingK n (sizingM n P) ≤ 1075 := by
  refine ⟨le_max_left _ _, max_le (by norm_num) (Nat.le_of_lt_succ ?_)⟩
  have hS : 0 < sizingScale sizingBits := by simp [sizingScale]
  have hSr : (0 : ℝ) < sizingScale sizingBits := by exact_mod_cast hS
  have hlo := mul_le_mul_of_nonneg_left (ln2Lo_le sizingBits) (show (0 : ℝ) ≤ 2 * sizingM n P by positivity)
  have hlt := mul_lt_mul_of_pos_left (sizingM_mul_log_two_lt hv) hSr
  have hnum : (2 * sizingM n P * ln2Lo sizingBits : ℝ) < 2151 * (n * sizingScale sizingBits) := by linarith
  have hnum : 2 * sizingM n P * ln2Lo sizingBits < 2151 * (n * sizingScale sizingBits) := by exact_mod_cast hnum
  rw [Nat.div_lt_iff_lt_mul (Nat.mul_pos (by have := hv.1; omega) hS), Nat.mul_assoc 2 n]
  omega

/-- The operands CFG accepts are those of the sizing formulas (R142, R143). -/
theorem validOperands_of_valid {n : Word} {P : BitVec 64} (hn : validCount n = true) (hP : validRate P = true) :
    ValidOperands n.toNat P := by
  have hn : 0 < n.toInt := of_decide_eq_true hn
  obtain ⟨h0, h1⟩ : 0 < P.toNat ∧ P.toNat < 0x3FF0000000000000 := by simpa [validRate] using hP
  rw [BitVec.toInt_eq_toNat_cond] at hn
  split at hn
  · exact ⟨by omega, by omega, h0, h1⟩
  · omega

end Sys2Proof.Proofs
end

section
/-! PROOFS. The invariant `State.Inv`: it holds at reset, and every command, every other step and every move of the host
keeps it. -/

namespace Sys2Proof.Proofs

open Sys2Proof.Machine Sys2Proof.Laws

/-- The reset state is good with any legal parameters (R44). -/
theorem resetWith_inv {p : Params} (hp : p.wf = true) : (State.resetWith p).Inv where
  params := hp
  memory := rfl
  cells := fun _ hc => nomatch hc
  unconfigured := fun _ => ⟨rfl, rfl, rfl, rfl⟩
  configured := fun h => nomatch h
  errorRecord := .inl rfl
  haltRecord := show false = true ↔ (0#32).extractLsb' 0 8 = Status.eIllegal.code by decide
  haltFraming := fun _ => rfl
  framing := ⟨1, rfl⟩
  responses := fun _ _ => Nat.zero_le _

section moves

variable {s : State}

theorem resetNow_inv (h : s.Inv) : (resetNow s).Inv := resetWith_inv h.params

/-! ## The host's moves -/

theorem offer_inv (h : s.Inv) (ws : List Word) : (offer ws s).Inv := { h with }

theorem raiseRst_inv (h : s.Inv) : (raiseRst s).Inv := { h with }

theorem takeRsp_inv {t : State} {w : Word} (h : s.Inv) (ht : takeRsp s = some (w, t)) : t.Inv := by
  obtain ⟨-, hrsp, heq⟩ := takeRsp_next ht
  rw [heq]
  refine { h with responses := fun d hd => ?_ }
  have := h.responses d hd
  rw [hrsp, List.length_cons] at this
  exact Nat.le_of_succ_le this

/-! ## Taking words -/

theorem takeCommand_inv (h : s.Inv) (rest : List Word) : (takeCommand rest s).Inv :=
  { h with haltFraming := fun _ => rfl, framing := ⟨1, rfl⟩ }

/-- A running block may take all the words offered while they are the beginning of a command (R41 (a)). -/
theorem takeAll_inv (h : s.Inv) (hh : s.halted = false) {owed : Nat}
    (hd : decode (s.taken ++ s.cmd) = .error (.waiting owed)) : (takeAll s).Inv :=
  { h with haltFraming := fun hh' => (Bool.false_ne_true (hh.symm.trans hh')).elim, framing := ⟨owed, hd⟩ }

/-! ## Responses and errors -/

/-- With room in the buffer, two more response words are within its depth (R257). -/
theorem length_add_two_le_of_rspRoom (hroom : rspRoom s = true) {d : Nat} (hd : s.par.rspDepth = some d) :
    s.rsp.length + 2 ≤ d := by
  simpa [rspRoom, hd] using hroom

theorem respond_inv (h : s.Inv) (hroom : rspRoom s = true) (st : Status) (opc : Byte) (v : Word) :
    (respond st opc v s).Inv := by
  rw [respond_eq]
  exact { h with responses := fun d hd => by simpa using length_add_two_le_of_rspRoom hroom hd }

/-- A status code names its status (R200). -/
theorem code_inj {st st' : Status} (h : st.code = st'.code) : st = st' := by
  revert h
  cases st <;> cases st' <;> decide

/-- Raising an error between two commands of a running block records it, and halts the block exactly for `E_ILLEGAL`
(R26, R206, R207). -/
theorem raise_inv (h : s.Inv) (hh : s.halted = false) (htaken : s.taken = []) (hroom : rspRoom s = true) {e : Status}
    (he : e ≠ .ok) (opc : Byte) (v : Word) : (raise e opc v s).Inv := by
  have hhalt : (raise e opc v s).halted = true ↔ e = .eIllegal := by simp [hh]
  have hcode : (statusWord e opc).extractLsb' 0 8 = Status.eIllegal.code ↔ e = .eIllegal := by
    rw [statusWord_code]
    exact ⟨code_inj, congrArg _⟩
  rw [raise_eq] at hhalt ⊢
  exact { h with
    errorRecord := .inr ⟨e, opc, he, rfl⟩
    haltRecord := hhalt.trans hcode.symm
    haltFraming := fun _ => htaken
    responses := fun d hd => by simpa using length_add_two_le_of_rspRoom hroom hd }

/-- An illegal header in a running block (R206). -/
theorem illegalCommand_inv (h : s.Inv) (hh : s.halted = false) (hroom : rspRoom s = true) (w : Word) :
    (illegalCommand w s).Inv :=
  raise_inv (takeCommand_inv h _) hh rfl hroom (by simp) _ _

/-! ## Commands -/

/-- Setting cells that exist (R52, R164). -/
theorem setList_inv (h : s.Inv) (hc : s.cfgd = true) {as : List Nat} (has : ∀ a ∈ as, cellExists s a = true) :
    State.Inv { s with bits := setList s.bits as } :=
  { h with
    memory := setList_wf h.memory as
    cells := setList_lt h.memory h.cells fun a ha => (cellExists_iff.1 (has a ha)).2
    unconfigured := fun hc' => (Bool.false_ne_true (hc'.symm.trans hc)).elim }

/-- The commit of CFG for accepted operands whose size fits (R145, R146, R147). -/
theorem commitFilter_inv (h : s.Inv) {n : Nat} {P : BitVec 64} (hv : ValidOperands n P)
    (hfits : sizeFits (sizingM n P) s = true) (seed : Word) :
    (commitFilter (sizingM n P) (sizingK n (sizingM n P)) seed s).Inv := by
  obtain ⟨hm1, hmax⟩ : 1 ≤ sizingM n P ∧ sizingM n P ≤ s.par.mMax.toNat := by simpa [sizeFits] using hfits
  obtain ⟨hk1, hk⟩ := sizingK_bounds hv
  have hm : (BitVec.ofNat 32 (sizingM n P)).toNat = sizingM n P := (BitVec.toNat_ofNat _ _).trans (Nat.mod_eq_of_lt (by omega))
  have hkn : (BitVec.ofNat 32 (sizingK n (sizingM n P))).toNat = sizingK n (sizingM n P) :=
    (BitVec.toNat_ofNat _ _).trans (Nat.mod_eq_of_lt (by omega))
  exact { h with
    memory := rfl
    cells := fun _ hc => nomatch hc
    unconfigured := fun hc => nomatch hc
    configured := fun _ => by
      simp only [commitFilter_m, commitFilter_k, commitFilter_par, hm, hkn]
      exact ⟨hm1, hmax, hk1, hk⟩ }

/-- A command run between two commands of a running block. -/
theorem exec_inv {t : State} {i : Instr} (h : s.Inv) (hh : s.halted = false) (htaken : s.taken = [])
    (hroom : rspRoom s = true) (ht : exec i s = .next t) : t.Inv := by
  rcases exec_next ht with ⟨st, v, hok, hill, rfl⟩ | ⟨v, heq, hbits⟩ | ⟨n, pLo, pHi, seed, rfl, -, hn, hP, hfits, rfl⟩
  · rw [← raise_next hill]
    exact raise_inv h hh htaken hroom hok _ _
  · have hset : State.Inv { s with bits := t.bits } := by
      rcases hbits with hb | ⟨len, key, -, hc, hex, hb⟩ <;> rw [hb]
      · exact h
      · exact setList_inv h hc hex
    have := respond_inv hset hroom .ok i.opc v
    rw [respond_eq] at this
    rw [heq]
    exact this
  · exact respond_inv (commitFilter_inv h (validOperands_of_valid hn hP) hfits seed) hroom _ _ _

/-- Every step keeps the invariant (R21 to R26, R31, R32, R41). -/
theorem step_inv {t : State} (h : s.Inv) (ht : step s = .next t) : t.Inv := by
  rcases step_next ht with ⟨-, rfl⟩ | ⟨-, -, -, rfl⟩ |
    ⟨-, hh, hroom, ⟨i, rest, -, hexec⟩ | ⟨e, w, -, -, rfl⟩ | ⟨owed, hd, rfl⟩⟩
  · exact resetNow_inv h
  · exact h
  · exact exec_inv (takeCommand_inv h rest) hh rfl hroom hexec
  · exact illegalCommand_inv h hh hroom w
  · exact takeAll_inv h hh hd

end moves

/-! ## The statements -/

/-- Settles O17: the invariant is kept by each of the five things a step can do. -/
theorem stepKeepsTheInvariant : Obligations.StepKeepsTheInvariant := fun _ _ => step_inv

/-- Settles O16: every field of the reset state has the value the invariant asks of an unconfigured block. -/
theorem resetStateIsGood : Obligations.ResetStateIsGood :=
  ⟨resetWith_inv (p := Params.reference) (by decide), fun _ => resetWith_inv⟩

/-- Settles O19, by induction on how the state is reached. -/
theorem reachableStatesAreGood : Obligations.ReachableStatesAreGood := fun p s hp hs => by
  induction hs with
  | reset => exact resetWith_inv hp
  | step _ hstep ih => exact step_inv ih hstep
  | offer ws _ ih => exact offer_inv ih ws
  | takeRsp _ htake ih => exact takeRsp_inv ih htake
  | raiseRst _ ih => exact raiseRst_inv ih

end Sys2Proof.Proofs
end

section
/-! PROOFS. Runs without a reset: what they keep of the Filter (R23 to R25, R33) and of a halted block (R22, R206). -/

namespace Sys2Proof.Proofs

open Sys2Proof.Machine Sys2Proof.Laws

/-- What a configured block keeps of its Filter until reset: the flag and the three registers, and the bit array but for
cells that have been set. -/
structure FilterKept (s t : State) : Prop where
  cfgd : t.cfgd = true
  m : t.m = s.m
  k : t.k = s.k
  seed : t.seed = s.seed
  bits : ∃ as, t.bits = setList s.bits as

theorem FilterKept.refl {s : State} (h : s.cfgd = true) : FilterKept s s := ⟨h, rfl, rfl, rfl, [], rfl⟩

theorem FilterKept.trans {s t u : State} (h : FilterKept s t) (h' : FilterKept t u) : FilterKept s u where
  cfgd := h'.cfgd
  m := h'.m.trans h.m
  k := h'.k.trans h.k
  seed := h'.seed.trans h.seed
  bits := by
    obtain ⟨as, has⟩ := h.bits
    obtain ⟨bs, hbs⟩ := h'.bits
    exact ⟨as ++ bs, by rw [hbs, has, setList, setList, setList, List.foldl_append]⟩

/-- A command run in a configured block keeps the Filter: only ADD writes, and it sets cells (R164, R191). -/
theorem exec_filterKept {s t : State} {i : Instr} (hc : s.cfgd = true) (h : exec i s = .next t) : FilterKept s t := by
  rcases exec_next h with ⟨st, v, -, -, rfl⟩ | ⟨v, heq, hbits⟩ | ⟨_, _, _, _, -, hc', -⟩
  · exact ⟨hc, rfl, rfl, rfl, [], rfl⟩
  · have hset : ∃ as, t.bits = setList s.bits as := by
      rcases hbits with hb | ⟨len, key, -, -, -, hb⟩
      · exact ⟨[], hb⟩
      · exact ⟨_, hb⟩
    rw [heq]
    exact ⟨hc, rfl, rfl, rfl, hset⟩
  · rw [hc] at hc'
    cases hc'

/-- An illegal header takes its one word, records the error, answers it and halts; nothing else changes (R206). -/
theorem illegalCommand_eq (w : Word) (s : State) :
    illegalCommand w s =
      { s with
        taken := []
        cmd := (streamWords s).tail
        pos := s.pos + (s.cmd.length - (streamWords s).tail.length)
        lastErr := statusWord .eIllegal (opcOf w)
        rsp := s.rsp ++ [statusWord .eIllegal (opcOf w), w]
        halted := true } := by
  simp [illegalCommand, raise_eq, takeCommand_eq]

/-- A step without reset keeps the Filter of a configured block. -/
theorem step_filterKept {s t : State} (hc : s.cfgd = true) (hr : s.rst = false) (h : step s = .next t) :
    FilterKept s t := by
  rcases step_next h with ⟨hr', -⟩ | ⟨-, -, -, rfl⟩ |
    ⟨-, -, -, ⟨i, rest, -, hexec⟩ | ⟨e, w, -, -, rfl⟩ | ⟨owed, -, rfl⟩⟩
  · rw [hr] at hr'
    cases hr'
  · exact .refl hc
  · obtain ⟨hc', hm, hk, hseed, hbits⟩ := exec_filterKept (s := takeCommand rest s) hc hexec
    exact ⟨hc', hm, hk, hseed, hbits⟩
  · rw [illegalCommand_eq]
    exact ⟨hc, rfl, rfl, rfl, [], rfl⟩
  · exact ⟨hc, rfl, rfl, rfl, [], rfl⟩

/-- Until the next reset a configured block keeps its Filter. -/
theorem evolves_filterKept {s t : State} (hc : s.cfgd = true) (h : Evolves s t) : FilterKept s t := by
  induction h with
  | refl => exact .refl hc
  | step _ hr hstep ih => exact ih.trans (step_filterKept ih.cfgd hr hstep)
  | offer ws _ ih => exact ih.trans ⟨ih.cfgd, rfl, rfl, rfl, [], rfl⟩
  | takeRsp _ htake ih =>
    obtain ⟨-, -, heq⟩ := takeRsp_next htake
    rw [heq]
    exact ih.trans ⟨ih.cfgd, rfl, rfl, rfl, [], rfl⟩

/-- Without reset a halted block answers no next state (R206). -/
theorem step_halted {s : State} (hh : s.halted = true) (hr : s.rst = false) : step s = .fault .halted := by
  simp [step, hh, hr]

/-! ## The statements -/

/-- Settles O23: the bit array of a later moment is the earlier one with cells set. -/
theorem setCellsStaySet : Obligations.SetCellsStaySet := fun s t hs hc h => by
  obtain ⟨as, has⟩ := (evolves_filterKept hc h).bits
  have hkeep : ∀ a, Memory.read s.bits a = 1#1 → Memory.read t.bits a = 1#1 := fun a ha =>
    has ▸ setList_keeps_set hs.memory as ha
  exact ⟨hkeep, countSet_le_of_read hs.memory (has ▸ setList_wf hs.memory as) hkeep⟩

/-- Settles O22: the Filter is kept along every run without a reset. -/
theorem filterRegistersAreImmutable : Obligations.FilterRegistersAreImmutable := fun _ _ hc h =>
  have hkept := evolves_filterKept hc h
  ⟨hkept.cfgd, hkept.m, hkept.k, hkept.seed⟩

/-- Settles O12, by induction on the run: no step answers, and the host's moves touch the streams alone. -/
theorem haltStaysUntilReset : Obligations.HaltStaysUntilReset := fun s t hh h => by
  induction h with
  | refl => exact ⟨hh, rfl, rfl, ⟨[], by simp⟩, ⟨0, rfl⟩, rfl, rfl, rfl, rfl, rfl, rfl⟩
  | step _ hr hstep ih =>
    rw [step_halted ih.1 hr] at hstep
    cases hstep
  | offer ws _ ih =>
    obtain ⟨hhalt, hpos, htaken, ⟨ws', hcmd⟩, hrsp, hregs⟩ := ih
    exact ⟨hhalt, hpos, htaken, ⟨ws' ++ ws, by simp [hcmd]⟩, hrsp, hregs⟩
  | takeRsp _ htake ih =>
    obtain ⟨hhalt, hpos, htaken, hcmd, ⟨n, hrsp⟩, hregs⟩ := ih
    obtain ⟨-, hcons, heq⟩ := takeRsp_next htake
    rw [heq]
    refine ⟨hhalt, hpos, htaken, hcmd, ⟨n + 1, ?_⟩, hregs⟩
    rw [← List.tail_drop, ← hrsp, hcons, List.tail_cons]

end Sys2Proof.Proofs
end

section
/-! PROOFS. One step of a running block: which words it takes (R39 to R41), how it moves the lifecycle state (R43) and
what it records in `LASTERR` (R26). -/

namespace Sys2Proof.Proofs

open Sys2Proof.Machine Sys2Proof.Laws

/-! ## Reset, and the three answers of a running block -/

/-- With `rst = 1` the step is the reset (R211, R240). -/
theorem resetNow_of_step {s t : State} (hr : s.rst = true) (h : step s = .next t) : resetNow s = t := by
  simpa [step, hr] using h

theorem step_command {s : State} (hrun : running s) {i : Instr} {rest : List Word}
    (hd : decode (s.taken ++ s.cmd) = .ok (i, rest)) : step s = exec i (takeCommand rest s) := by
  obtain ⟨hr, hh, hroom⟩ := hrun
  simp [step, hr, hh, hroom, streamWords, hd]

theorem step_illegal {s : State} (hrun : running s) {e : Reject} {w : Word}
    (hd : decode (s.taken ++ s.cmd) = .error e) (he : e.illegalHeader = some w) :
    step s = .next (illegalCommand w s) := by
  obtain ⟨hr, hh, hroom⟩ := hrun
  simp [step, hr, hh, hroom, streamWords, hd, he]

theorem step_waiting {s : State} (hrun : running s) {owed : Nat}
    (hd : decode (s.taken ++ s.cmd) = .error (.waiting owed)) : step s = .next (takeAll s) := by
  obtain ⟨hr, hh, hroom⟩ := hrun
  simp [step, hr, hh, hroom, streamWords, hd, Reject.illegalHeader, awaitWords]

/-! ## Words taken -/

/-- With no word offered, taking all words is no change. -/
theorem takeAll_eq_self {s : State} (h : s.cmd = []) : takeAll s = s := by
  obtain ⟨par, cfgd, halted, m, k, seed, lastErr, bits, taken, pos, cmd, rsp, rst⟩ := s
  obtain rfl : cmd = [] := h
  simp [takeAll]

/-- The words of a command and the words after it are the words at hand; those taken before belong to the command
(R40). -/
theorem cmdLen_add_length_rest {s : State} (h : s.Inv) {i : Instr} {rest : List Word}
    (hd : decode (s.taken ++ s.cmd) = .ok (i, rest)) :
    i.cmdLen + rest.length = s.taken.length + s.cmd.length ∧ rest.length ≤ s.cmd.length := by
  obtain ⟨owed, hwait⟩ := h.framing
  obtain ⟨-, pre, hpre, hlen, -⟩ := decode_ok hd
  obtain ⟨new, hnew⟩ := rest_suffix hwait hd
  constructor
  · rw [← hlen, ← List.length_append, ← List.length_append, hpre]
  · rw [hnew, List.length_append]
    exact Nat.le_add_left _ _

/-- A command's meaning moves no word of the command stream: its words were taken before it ran (R40). -/
theorem exec_framing {i : Instr} {s t : State} (h : exec i s = .next t) :
    t.cmd = s.cmd ∧ t.taken = s.taken ∧ t.pos = s.pos := by
  obtain ⟨-, -, -, -, -, hcmd, htaken, hpos, -⟩ := exec_response h
  exact ⟨hcmd, htaken, hpos⟩

/-! ## The lifecycle state -/

/-- Two states with the same flags are in the same lifecycle state. -/
theorem lifecycle_congr {s t : State} (hh : t.halted = s.halted) (hc : t.cfgd = s.cfgd) : lifecycle t = lifecycle s := by
  simp only [lifecycle, hh, hc]

/-- No command halts the block (R206). -/
theorem exec_halted {i : Instr} {s t : State} (h : exec i s = .next t) : t.halted = s.halted := by
  obtain ⟨-, -, -, -, -, -, -, -, hhalted, -⟩ := exec_response h
  exact hhalted

/-- The first words of two responses are equal only if their statuses are. -/
theorem statusWord_inj {st st' : Status} {opc opc' : Byte} (h : statusWord st opc = statusWord st' opc') : st = st' :=
  code_inj <| by rw [← statusWord_code st opc, ← statusWord_code st' opc', h]

/-- A CFG raises an error and leaves `CFGD`, or it answers `OK` and takes the block from unconfigured to configured
(R140, R147, R148). -/
theorem cfg_next {n pLo pHi seed : Word} {s t : State} (h : exec (.cfg n pLo pHi seed) s = .next t) :
    (∃ e v, e ≠ .ok ∧ t = raise e 0x01#8 v s) ∨
      s.cfgd = false ∧ ∃ v m k, t = respond .ok 0x01#8 v (commitFilter m k seed s) := by
  simp only [exec, execCfg] at h
  split_ifs at h with h1 <;> cases h
  · exact .inl ⟨.eState, _, by simp, rfl⟩
  · exact .inl ⟨.eSizing, _, by simp, rfl⟩
  · exact .inl ⟨.eSizing, _, by simp, rfl⟩
  · exact .inl ⟨.eSizing, _, by simp, rfl⟩
  · exact .inr ⟨by simpa using h1, _, _, _, rfl⟩

/-- A CFG answered `OK` found the block unconfigured and leaves it configured (R43). -/
theorem cfg_ok_configures {n pLo pHi seed v : Word} {s t : State} (h : exec (.cfg n pLo pHi seed) s = .next t)
    (hrsp : t.rsp = s.rsp ++ [statusWord .ok 0x01#8, v]) : s.cfgd = false ∧ t.cfgd = true := by
  rcases cfg_next h with ⟨e, v', he, rfl⟩ | ⟨hc, v', m, k, rfl⟩
  · rw [raise_rsp] at hrsp
    have hwords := List.append_cancel_left hrsp
    exact absurd (statusWord_inj (List.cons.inj hwords).1) he
  · exact ⟨hc, rfl⟩

/-- A command that changes `CFGD` is a CFG answered `OK` (R191). -/
theorem exec_cfgd {i : Instr} {s t : State} (h : exec i s = .next t) :
    t.cfgd = s.cfgd ∨
      ∃ n pLo pHi seed v, i = .cfg n pLo pHi seed ∧ t.rsp = s.rsp ++ [statusWord .ok 0x01#8, v] := by
  rcases exec_next h with ⟨st, v, -, -, rfl⟩ | ⟨v, heq, -⟩ | ⟨n, pLo, pHi, seed, rfl, -, -, -, -, rfl⟩
  · exact .inl rfl
  · exact .inl (by rw [heq])
  · exact .inr ⟨n, pLo, pHi, seed, _, rfl, by rw [respond_rsp, commitFilter_rsp]⟩

/-! ## `LASTERR` -/

/-- The response of a step and what it leaves in `LASTERR`: an error leaves its own first word (R26). -/
theorem step_response {s t : State} (hr : s.rst = false) (h : step s = .next t) :
    (t.rsp = s.rsp ∧ t.lastErr = s.lastErr) ∨
      ∃ st w v ws, s.taken ++ s.cmd = w :: ws ∧ t.rsp = s.rsp ++ [statusWord st (opcOf w), v] ∧
        t.lastErr = if st = .ok then s.lastErr else statusWord st (opcOf w) := by
  rcases step_next h with ⟨hr', -⟩ | ⟨-, -, -, rfl⟩ |
    ⟨-, -, -, ⟨i, rest, hd, hexec⟩ | ⟨e, w, hd, he, rfl⟩ | ⟨owed, -, rfl⟩⟩
  · rw [hr] at hr'
    cases hr'
  · exact .inl ⟨rfl, rfl⟩
  · obtain ⟨w, ws, hws, hopc⟩ := decode_ok_opc hd
    obtain ⟨st, v, -, hrsp, herr, -⟩ := exec_response hexec
    rw [hopc] at hrsp herr
    exact .inr ⟨st, w, v, ws, hws, hrsp, herr⟩
  · obtain ⟨ws, hws⟩ := decode_illegal_head hd he
    rw [illegalCommand_eq]
    exact .inr ⟨.eIllegal, w, w, ws, hws, rfl, rfl⟩
  · exact .inl ⟨rfl, rfl⟩

/-- Only `OK` has the code 0 (R200). -/
theorem code_eq_zero_iff (st : Status) : st.code = 0#8 ↔ st = .ok := ⟨code_inj (st' := .ok), congrArg _⟩

/-! ## The statements -/

/-- Settles O7: the decoder yields well-formed commands, and a running block runs what it decodes. -/
theorem stepRunsTheDecodedCommand : Obligations.StepRunsTheDecodedCommand := fun _ _ _ hrun hd =>
  ⟨(decode_ok hd).1, step_command hrun hd⟩

/-- Settles O9: with words owed, the step is `takeAll`. -/
theorem incompleteCommandWaits : Obligations.IncompleteCommandWaits := fun s _ hrun hd =>
  ⟨step_waiting hrun hd, fun hvalid => by
    have hcmd : s.cmd = [] := by simpa [cmdValid] using hvalid
    rw [step_waiting hrun hd, takeAll_eq_self hcmd]⟩

/-- Settles O8, by counting the words taken before and with the command. -/
theorem positionAdvancesByCmdLen : Obligations.PositionAdvancesByCmdLen := fun s t i rest hs hrun hd ht => by
  obtain ⟨hlen, hrest⟩ := cmdLen_add_length_rest hs hd
  obtain ⟨hcmd, htaken, hpos⟩ := exec_framing ((step_command hrun hd).symm.trans ht)
  refine ⟨?_, hcmd, htaken⟩
  rw [hpos, takeCommand_pos]
  omega

/-- Settles O25: reset, a CFG answered `OK`, an illegal header, and every other step. -/
theorem lifecycleTransitions : Obligations.LifecycleTransitions := fun s t ht => by
  refine ⟨fun hr => ?_, fun hrun n pLo pHi seed rest v hd hrsp => ?_, fun hrun e w hd he => ?_, fun hr hne => ?_⟩
  · rw [← resetNow_of_step hr ht]
    rfl
  · have hexec := (step_command hrun hd).symm.trans ht
    obtain ⟨-, hh, -⟩ := hrun
    obtain ⟨hc, hc'⟩ := cfg_ok_configures hexec hrsp
    have hh' : t.halted = false := (exec_halted hexec).trans hh
    rw [takeCommand_cfgd] at hc
    simp [lifecycle, hh, hc, hh', hc']
  · obtain rfl : illegalCommand w s = t := by simpa using (step_illegal hrun hd he).symm.trans ht
    simp [lifecycle, illegalCommand_eq]
  · rcases step_next ht with ⟨hr', -⟩ | ⟨-, -, -, rfl⟩ |
      ⟨-, -, -, ⟨i, rest, hd, hexec⟩ | ⟨e, w, hd, he, -⟩ | ⟨owed, -, rfl⟩⟩
    · exact absurd (hr.symm.trans hr') (by decide)
    · exact absurd rfl hne
    · rcases exec_cfgd hexec with hc | ⟨n, pLo, pHi, seed, v, rfl, hrsp⟩
      · exact absurd (lifecycle_congr (exec_halted hexec) hc) hne
      · exact .inl ⟨n, pLo, pHi, seed, rest, v, hd, hrsp⟩
    · exact .inr ⟨e, w, hd, he⟩
    · exact absurd rfl hne

/-- Settles O28: reset clears `LASTERR`, and a response that is not `OK` leaves its own first word there. -/
theorem lasterrRecordsErrorResponses : Obligations.LasterrRecordsErrorResponses := fun s t ht => by
  refine ⟨fun hr => ?_, fun hr => (step_response hr ht).imp_right ?_⟩
  · rw [← resetNow_of_step hr ht, resetNow_lastErr]
  · rintro ⟨st, w, v, ws, hws, hrsp, herr⟩
    simp only [← code_eq_zero_iff] at herr
    exact ⟨st.code, opcOf w, v, w, ws, hrsp, hws, rfl, herr⟩

end Sys2Proof.Proofs
end

section
/-! PROOFS. One lane computes the pure functions the commands use, whatever its registers held before (R36, R119,
R162). -/

namespace Sys2Proof.Proofs

open Sys2Proof.Machine Sys2Proof.Laws

theorem laneBlock_h (key : List Byte) (l : Lane) (j : Nat) : (laneBlock key l j).h = acc l.h (scr (keyBlock key j)) := by
  rw [laneBlock]

theorem laneBlock_lenc (key : List Byte) (l : Lane) (j : Nat) : (laneBlock key l j).lenc = l.lenc := by
  rw [laneBlock]

/-- Over the full blocks a lane accumulates as the hash does, and it keeps the length. -/
theorem foldl_laneBlock (key : List Byte) (js : List Nat) (l : Lane) :
    (js.foldl (laneBlock key) l).h = js.foldl (fun h j => acc h (scr (keyBlock key j))) l.h ∧
      (js.foldl (laneBlock key) l).lenc = l.lenc := by
  induction js generalizing l with
  | nil => exact ⟨rfl, rfl⟩
  | cons j js ih => simpa only [List.foldl_cons, laneBlock_h, laneBlock_lenc] using ih (laneBlock key l j)

theorem laneTail_h (key : List Byte) (l : Lane) : (laneTail key l).h = hashTail key l.h := by
  unfold laneTail hashTail
  split <;> rfl

theorem laneTail_lenc (key : List Byte) (l : Lane) : (laneTail key l).lenc = l.lenc := by
  unfold laneTail
  split <;> rfl

/-- A lane leaves the hash in `HV` (R119). -/
theorem laneHash_hv (key : List Byte) (seed : Word) (l : Lane) : (laneHash key seed l).hv = hash key seed := by
  obtain ⟨hh, hlenc⟩ := foldl_laneBlock key (List.range (key.length / 4)) (laneStart key seed l)
  simp only [laneHash, laneFinish, laneTail_h, laneTail_lenc, hh, hlenc]
  rfl

/-- A lane leaves the index in `IDX` (R162). -/
theorem laneRun_idx (s : State) (key : List Byte) (i : Nat) (l : Lane) :
    (laneRun s key i l).idx = BitVec.ofNat 32 (filterIndex s key i) := by
  simp only [laneRun, laneIndex, laneHash_hv, filterIndex]

/-- With at least one cell the index fits in `IDX` (R163). -/
theorem filterIndex_lt {s : State} (hm : 1 ≤ s.m.toNat) (key : List Byte) (i : Nat) : filterIndex s key i < s.m.toNat :=
  Nat.mod_lt _ hm

theorem laneRun_idx_toNat {s : State} (hm : 1 ≤ s.m.toNat) (key : List Byte) (i : Nat) (l : Lane) :
    (laneRun s key i l).idx.toNat = filterIndex s key i := by
  have := filterIndex_lt hm key i
  rw [laneRun_idx, BitVec.toNat_ofNat, Nat.mod_eq_of_lt (by omega)]

/-- A lane's probe reads the cell of its index (R166). -/
theorem laneProbe_laneRun_hit (s : State) (key : List Byte) (i : Nat) (l : Lane) :
    (laneProbe s (laneRun s key i l)).hit = Memory.read s.bits (BitVec.ofNat 32 (filterIndex s key i)).toNat := by
  rw [← laneRun_idx s key i l]
  rfl

/-- Settles O54: what a lane leaves in its registers is a function of the state, the key and the function number. -/
theorem laneContentBeforeDoesNotMatter : Obligations.LaneContentBeforeDoesNotMatter := fun l l' s key seed i hs hc => by
  obtain ⟨hm, -⟩ := hs.configured hc
  exact ⟨laneHash_hv key seed l, laneRun_idx_toNat hm key i l, by simp only [laneProbe_laneRun_hit]⟩

end Sys2Proof.Proofs
end

section
/-! PROOFS. The bytes of the `KEY` space as the hash reads them: blocks and tail word (R15, R55, R57). -/

namespace Sys2Proof.Proofs

open Sys2Proof.Machine Sys2Proof.Laws

/-- One more byte in front: the bytes read before move up by one place, and none is lost while at most three were
there. -/
theorem keyRead_succ_toNat {key : List Byte} {a n : Nat} (h : (keyRead key (a + 1) n).toNat < 2 ^ 24) :
    (keyRead key a (n + 1)).toNat = (keyByte key a).toNat + 2 ^ 8 * (keyRead key (a + 1) n).toNat := by
  have hbyte := (keyByte key a).isLt
  rw [keyRead, zext32, BitVec.toNat_add, BitVec.toNat_mul, BitVec.toNat_setWidth, BitVec.toNat_ofNat]
  omega

/-- `n` bytes fill `n` places of a word. -/
theorem keyRead_toNat_lt (key : List Byte) (a : Nat) {n : Nat} (hn : n ≤ 4) : (keyRead key a n).toNat < 2 ^ (8 * n) := by
  induction n generalizing a with
  | zero => simp [keyRead]
  | succ n ih =>
    have hlt := ih (a + 1) (by omega)
    have h24 : 2 ^ (8 * n) ≤ 2 ^ 24 := Nat.pow_le_pow_right (by omega) (by omega)
    have hbyte := (keyByte key a).isLt
    rw [keyRead_succ_toNat (hlt.trans_le h24), Nat.mul_succ, Nat.pow_add]
    omega

/-- Up to four bytes read from the `KEY` space, as a number: the byte at the `t`-th address has weight `2^(8t)`
(R15, R56). -/
theorem keyRead_toNat (key : List Byte) (a : Nat) {n : Nat} (hn : n ≤ 4) :
    (keyRead key a n).toNat = ∑ t ∈ Finset.range n, 2 ^ (8 * t) * (keyByte key (a + t)).toNat := by
  induction n generalizing a with
  | zero => simp [keyRead]
  | succ n ih =>
    have h24 : 2 ^ (8 * n) ≤ 2 ^ 24 := Nat.pow_le_pow_right (by omega) (by omega)
    have hshift : ∀ t, 2 ^ 8 * (2 ^ (8 * t) * (keyByte key (a + 1 + t)).toNat) =
        2 ^ (8 * (t + 1)) * (keyByte key (a + (t + 1))).toNat := fun t => by
      rw [← Nat.mul_assoc, ← Nat.pow_add, Nat.mul_succ, Nat.add_comm 8, Nat.add_assoc a, Nat.add_comm 1]
    rw [keyRead_succ_toNat ((keyRead_toNat_lt key (a + 1) (by omega)).trans_le h24), ih (a + 1) (by omega),
      Finset.sum_range_succ', Finset.mul_sum, Finset.sum_congr rfl fun t _ => hshift t]
    simp [Nat.add_comm]

/-- Settles O50: the sum of a four-byte read, written out. -/
theorem keyBlocksAreLittleEndian : Obligations.KeyBlocksAreLittleEndian := fun key j => by
  simp [keyBlock, keyRead_toNat key (4 * j) le_rfl, Finset.sum_range_succ]

/-- Settles O51: the tail word is a read of at most three bytes. -/
theorem tailWordHoldsOnlyTheTail : Obligations.TailWordHoldsOnlyTheTail := fun key =>
  have hr : key.length % 4 ≤ 4 := (Nat.mod_lt _ (by decide)).le
  ⟨keyRead_toNat key _ hr, keyRead_toNat_lt key _ hr⟩

end Sys2Proof.Proofs
end

section
/-! PROOFS. The accesses of ADD and QRY to the `BIT` space: all of them exist (R60), and their order and number do not
matter (R63, R170). -/

namespace Sys2Proof.Proofs

open Sys2Proof.Machine Sys2Proof.Laws

/-- In a good configured state every index of a key is the address of a cell (R60, R163). -/
theorem cellExists_filterIndex {s : State} (h : s.Inv) (hc : s.cfgd = true) (key : List Byte) (i : Nat) :
    cellExists s (filterIndex s key i) = true :=
  cellExists_iff.2 ⟨hc, filterIndex_lt (h.configured hc).1 key i⟩

theorem cellExists_of_mem_map {s : State} (h : s.Inv) (hc : s.cfgd = true) (key : List Byte) (order : List Nat) :
    ∀ a ∈ order.map (filterIndex s key), cellExists s a = true :=
  List.forall_mem_map.2 fun i _ => cellExists_filterIndex h hc key i

/-! ## Order -/

/-- Lists with the same addresses set the same cells. -/
theorem setList_congr {mem : Memory} (h : Memory.wf mem = true) {as bs : List Nat} (hmem : ∀ a, a ∈ as ↔ a ∈ bs) :
    setList mem as = setList mem bs :=
  ext_of_read (setList_wf h as) (setList_wf h bs) fun a => by simp only [setList_read h, hmem]

/-- Lists with the same addresses are set alike. -/
theorem setCells_congr {s : State} (h : Memory.wf s.bits = true) {as bs : List Nat} (hmem : ∀ a, a ∈ as ↔ a ∈ bs)
    (hex : ∀ a ∈ bs, cellExists s a = true) : setCells as s = setCells bs s := by
  rw [setCells_eq fun a ha => hex a ((hmem a).1 ha), setCells_eq hex, setList_congr h hmem]

/-- Lists with the same addresses are probed alike. -/
theorem probeCells_congr {s : State} {as bs : List Nat} (hmem : ∀ a, a ∈ as ↔ a ∈ bs)
    (hex : ∀ a ∈ bs, cellExists s a = true) : probeCells s as = probeCells s bs := by
  rw [probeCells_eq fun a ha => hex a ((hmem a).1 ha), probeCells_eq hex, Option.some_inj, Bool.eq_iff_iff]
  simp only [List.all_eq_true, hmem]

/-- Settles O46: the function numbers of `order` and of `0 .. K-1` lead to the same addresses. -/
theorem accessOrderDoesNotMatter : Obligations.AccessOrderDoesNotMatter := fun s key order hs hc horder => by
  have hmem : ∀ a, a ∈ order.map (filterIndex s key) ↔ a ∈ filterIndices s key := fun a => by
    simp only [filterIndices, List.mem_map, List.mem_range, horder]
  have hex := cellExists_of_mem_map hs hc key (List.range s.k.toNat)
  exact ⟨setCells_congr hs.memory hmem hex, probeCells_congr hmem hex⟩

/-! ## No command of a good state stops -/

theorem execCfg_answers (n pLo pHi seed : Word) (s : State) : ∃ t, execCfg n pLo pHi seed s = .next t := by
  simp only [execCfg]
  split_ifs <;> exact ⟨_, rfl⟩

theorem execAdd_answers {s : State} (h : s.Inv) (len : Word) (key : List Byte) : ∃ t, execAdd len key s = .next t := by
  unfold execAdd
  split_ifs with hc
  · exact ⟨_, rfl⟩
  · exact ⟨_, rfl⟩
  · rw [filterIndices, setCells_eq (cellExists_of_mem_map h (by simpa using hc) key _)]
    exact ⟨_, rfl⟩

theorem execQry_answers {s : State} (h : s.Inv) (len : Word) (key : List Byte) : ∃ t, execQry len key s = .next t := by
  unfold execQry
  split_ifs with hc
  · exact ⟨_, rfl⟩
  · exact ⟨_, rfl⟩
  · rw [filterIndices, probeCells_eq (cellExists_of_mem_map h (by simpa using hc) key _)]
    exact ⟨_, rfl⟩

theorem execHash_answers (hseed len : Word) (data : List Byte) (s : State) :
    ∃ t, execHash hseed len data s = .next t := by
  unfold execHash
  split_ifs <;> exact ⟨_, rfl⟩

theorem execRdcsr_answers (csra : Byte) (s : State) : ∃ t, execRdcsr csra s = .next t := by
  unfold execRdcsr
  split <;> exact ⟨_, rfl⟩

/-- In a good state every command answers a next state: only ADD and QRY access cells, and theirs exist (R60). -/
theorem exec_answers {s : State} (h : s.Inv) (i : Instr) : ∃ t, exec i s = .next t := by
  cases i with
  | cfg n pLo pHi seed => exact execCfg_answers n pLo pHi seed s
  | add len key => exact execAdd_answers h len key
  | qry len key => exact execQry_answers h len key
  | hash hseed len data => exact execHash_answers hseed len data s
  | rdcsr csra => exact execRdcsr_answers csra s

/-- A running block in a good state answers a next state, whatever stands in its command stream (R202, R206). -/
theorem step_answers {s : State} (h : s.Inv) (hrun : running s) : ∃ t, step s = .next t := by
  cases hd : decode (s.taken ++ s.cmd) with
  | ok r =>
    obtain ⟨i, rest⟩ := r
    rw [step_command hrun hd]
    exact exec_answers (takeCommand_inv h rest) i
  | error e =>
    cases e with
    | rsvNonzero w => exact ⟨_, step_illegal hrun hd rfl⟩
    | argNonzero w => exact ⟨_, step_illegal hrun hd rfl⟩
    | noSuchOpcode w => exact ⟨_, step_illegal hrun hd rfl⟩
    | waiting owed => exact ⟨_, step_waiting hrun hd⟩

/-- Settles O20: a reset and a full response buffer answer a next state, and so does a running block. -/
theorem onlyTheHaltStopsAGoodState : Obligations.OnlyTheHaltStopsAGoodState := fun s hs => by
  cases hr : s.rst with
  | true => exact .inl ⟨resetNow s, by simp [step, hr]⟩
  | false =>
    cases hh : s.halted with
    | true => exact .inr ⟨rfl, rfl, step_halted hh hr⟩
    | false =>
      cases hroom : rspRoom s with
      | true => exact .inl (step_answers hs ⟨hr, hh, hroom⟩)
      | false => exact .inl ⟨s, by simp [step, hr, hh, hroom]⟩

end Sys2Proof.Proofs
end

section
/-! PROOFS. The encoding of commands: the header word (R83, R97), the payload (R93, R94), and the decoder against the
encoder (R85 to R91). -/

namespace Sys2Proof.Proofs

open Sys2Proof.Machine Sys2Proof.Laws Sys2Proof.Statements

/-! ## The decoder at a legal header (R84, R85 to R88) -/

theorem decode_cfg_header (ws : List Word) : decode (0x00000001#32 :: ws) = decodeC ws := rfl

theorem decode_add_header (ws : List Word) : decode (0x00000002#32 :: ws) = decodeK .add ws := rfl

theorem decode_qry_header (ws : List Word) : decode (0x00000003#32 :: ws) = decodeK .qry ws := rfl

theorem decode_hash_header (ws : List Word) : decode (0x00000004#32 :: ws) = decodeH ws := rfl

theorem decode_rdcsr_header (csra : Byte) (ws : List Word) :
    decode (header csra 0x05#8 :: ws) = .ok (.rdcsr csra, ws) := by
  simp [decode]

/-! ## Which words are legal headers (R97) -/

/-- A header word as a number (R83). -/
theorem header_toNat (arg opc : Byte) : (header arg opc).toNat = 256 * arg.toNat + opc.toNat := by
  rw [header, BitVec.toNat_append, BitVec.toNat_append, ← Nat.shiftLeft_add_eq_or_of_lt opc.isLt]
  simp [Nat.shiftLeft_eq, Nat.mul_comm]

/-- A word with `RSV = 0` is the header of its other two fields (R83). -/
theorem eq_header {w : Word} {arg opc : Byte} (hr : rsvOf w = 0#16) (ha : argOf w = arg) (ho : opcOf w = opc) :
    w = header arg opc := by
  have hw := w.isLt
  have hrsv : w.toNat / 2 ^ 16 % 2 ^ 16 = 0 := by
    simpa [rsvOf, Nat.shiftRight_eq_div_pow] using congrArg BitVec.toNat hr
  apply BitVec.eq_of_toNat_eq
  rw [header_toNat, ← ha, ← ho, argOf, opcOf, BitVec.extractLsb'_toNat, BitVec.extractLsb'_toNat,
    Nat.shiftRight_eq_div_pow, Nat.shiftRight_zero]
  omega

/-- The last row of R97's list, by the number of the register address. -/
theorem header_rdcsr_eq_ofNat {aa : Nat} (haa : aa < 256) :
    header (BitVec.ofNat 8 aa) 0x05#8 = BitVec.ofNat 32 (256 * aa + 5) := by
  apply BitVec.eq_of_toNat_eq
  rw [header_toNat, BitVec.toNat_ofNat, BitVec.toNat_ofNat, BitVec.toNat_ofNat]
  omega

theorem legalHeader_rdcsr (csra : Byte) : legalHeader (header csra 0x05#8) :=
  .inr <| .inr <| .inr <| .inr ⟨csra.toNat, csra.isLt, by
    rw [← header_rdcsr_eq_ofNat csra.isLt, BitVec.ofNat_toNat, BitVec.setWidth_eq]⟩
/-- Behind a legal header only words can be missing. -/
theorem decode_legalHeader_error {w : Word} {ws : List Word} {e : Reject} (hw : legalHeader w)
    (h : decode (w :: ws) = .error e) : ∃ owed, e = .waiting owed := by
  rcases hw with rfl | rfl | rfl | rfl | ⟨aa, haa, rfl⟩
  · exact decodeC_error h
  · exact decodeK_error h
  · exact decodeK_error h
  · exact decodeH_error h
  · rw [← header_rdcsr_eq_ofNat haa, decode_rdcsr_header] at h
    cases h

/-- A header that is none of R97's words is rejected for itself, whatever follows it. -/
theorem decode_illegalHeader {w : Word} (hw : ¬ legalHeader w) (ws : List Word) :
    ∃ e, decode (w :: ws) = .error e ∧ e.illegalHeader = some w := by
  rw [decode]
  split_ifs with hr h1 ha h2 ha h3 ha h4 ha h5
  · exact ⟨_, rfl, rfl⟩
  · exact ⟨_, rfl, rfl⟩
  · exact absurd (.inl (eq_header (not_not.1 hr) (not_not.1 ha) h1)) hw
  · exact ⟨_, rfl, rfl⟩
  · exact absurd (.inr (.inl (eq_header (not_not.1 hr) (not_not.1 ha) h2))) hw
  · exact ⟨_, rfl, rfl⟩
  · exact absurd (.inr (.inr (.inl (eq_header (not_not.1 hr) (not_not.1 ha) h3)))) hw
  · exact ⟨_, rfl, rfl⟩
  · exact absurd (.inr (.inr (.inr (.inl (eq_header (not_not.1 hr) (not_not.1 ha) h4))))) hw
  · exact absurd (eq_header (not_not.1 hr) rfl h5 ▸ legalHeader_rdcsr _) hw
  · exact ⟨_, rfl, rfl⟩

/-! ## The payload (R92, R93, R94) -/

/-- Byte `a` of the bytes of the payload words is byte `a mod 4` of word `a div 4` (R93). -/
theorem getD_flatMap_wordBytes (ws : List Word) (a : Nat) : (ws.flatMap wordBytes).getD a 0#8 = payloadByte ws a := by
  induction ws generalizing a with
  | nil => simp [payloadByte]
  | cons w ws ih =>
    match a with
    | 0 => rfl
    | 1 => rfl
    | 2 => rfl
    | 3 => rfl
    | a + 4 =>
      have hdiv : (a + 4) / 4 = a / 4 + 1 := by omega
      have hmod : (a + 4) % 4 = a % 4 := by omega
      rw [payloadByte, hdiv, hmod]
      exact ih a

/-- The key of a payload, byte by byte (R92, R93). -/
def payloadKey (len : Word) (ws : List Word) : List Byte := (List.range len.toNat).map (payloadByte ws)

theorem length_payloadKey (len : Word) (ws : List Word) : (payloadKey len ws).length = len.toNat := by
  simp [payloadKey]

theorem getD_payloadKey {len : Word} {a : Nat} (ha : a < len.toNat) (ws : List Word) :
    (payloadKey len ws).getD a 0#8 = payloadByte ws a := by
  simp [payloadKey, ha]

/-- The first `LEN` bytes of the payload words are the key (R93). -/
theorem take_flatMap_wordBytes {len : Word} {ws : List Word} (h : len.toNat ≤ 4 * ws.length) :
    (ws.flatMap wordBytes).take len.toNat = payloadKey len ws := by
  have hbytes := length_flatMap_wordBytes ws
  have hlen : ((ws.flatMap wordBytes).take len.toNat).length = (payloadKey len ws).length := by
    rw [length_payloadKey, List.length_take_of_le (by omega)]
  refine List.ext_getElem hlen fun a ha ha' => ?_
  have halt : a < (ws.flatMap wordBytes).length := ha.trans_le (List.length_take_le' _ _)
  rw [List.getElem_take, ← List.getD_eq_getElem _ 0#8 halt, getD_flatMap_wordBytes]
  simp [payloadKey]

/-- The words after the payload give no byte of the key (R94). -/
theorem payloadKey_append {len : Word} {ws : List Word} (h : ws.length = (len.toNat + 3) / 4) (rest : List Word) :
    payloadKey len (ws ++ rest) = payloadKey len ws := by
  refine List.map_congr_left fun a ha => ?_
  have ha : a < len.toNat := List.mem_range.1 ha
  rw [payloadByte, List.getD_append _ _ _ _ (by omega), payloadByte]

/-- `TakePayload` takes a payload whole, and leaves the words after it (R91). -/
theorem takePayload_append {len : Word} {ws : List Word} (h : ws.length = (len.toNat + 3) / 4) (rest : List Word) :
    takePayload len (ws ++ rest) = .ok (payloadKey len ws, rest) := by
  have hle : payloadWords len.toNat ≤ (ws ++ rest).length := by
    rw [payloadWords, List.length_append]
    omega
  rw [takePayload, if_pos hle, payloadWords, List.take_left' h, List.drop_left' h, take_flatMap_wordBytes (by omega)]

/-- `TakePayload` on any stream that holds the payload (R91). -/
theorem takePayload_eq {len : Word} {ws : List Word} (h : (len.toNat + 3) / 4 ≤ ws.length) :
    takePayload len ws = .ok (payloadKey len ws, ws.drop ((len.toNat + 3) / 4)) := by
  have hlen := List.length_take_of_le h
  have hp := takePayload_append hlen (ws.drop ((len.toNat + 3) / 4))
  rwa [← payloadKey_append hlen (ws.drop ((len.toNat + 3) / 4)), List.take_append_drop] at hp

/-- Format K behind its header (R86). -/
theorem decodeK_ok {len : Word} {ws rest : List Word} {key : List Byte} (h : takePayload len ws = .ok (key, rest))
    (mk : Word → List Byte → Instr) : decodeK mk (len :: ws) = .ok (mk len key, rest) := by
  simp [decodeK, h]

/-- Format H behind its header (R87). -/
theorem decodeH_ok {len : Word} {ws rest : List Word} {data : List Byte} (h : takePayload len ws = .ok (data, rest))
    (hseed : Word) : decodeH (hseed :: len :: ws) = .ok (.hash hseed len data, rest) := by
  simp [decodeH, h]

/-! ## The statements -/

/-- Settles O1, by the form of the command: behind its header the operands stand as words, and the packed key is
unpacked. -/
theorem decodeEncodeRoundTrip : Obligations.DecodeEncodeRoundTrip := fun i rest hwf => by
  cases i with
  | cfg n pLo pHi seed => exact decode_cfg_header (n :: pLo :: pHi :: seed :: rest)
  | add len key => exact (decode_add_header _).trans (decodeK_ok (takePayload_pack (eq_of_beq hwf) rest) _)
  | qry len key => exact (decode_qry_header _).trans (decodeK_ok (takePayload_pack (eq_of_beq hwf) rest) _)
  | hash hseed len data => exact (decode_hash_header _).trans (decodeH_ok (takePayload_pack (eq_of_beq hwf) rest) _)
  | rdcsr csra => exact decode_rdcsr_header csra rest

/-- Settles O2: the words a command is decoded from are as many as its `CmdLen`. -/
theorem decoderTakesCmdLenWords : Obligations.DecoderTakesCmdLenWords := fun ws rest i h => by
  obtain ⟨hwf, pre, hpre, hlen, -⟩ := decode_ok h
  refine ⟨hwf, pre, hpre, hlen.trans ?_⟩
  cases i <;> rfl

/-- Settles O3: an illegal header is rejected at once, behind a legal one only words can be missing, and a running block
halts at an illegal one. -/
theorem headerLegalIffTableRow : Obligations.HeaderLegalIffTableRow := by
  refine ⟨fun w ws => ⟨fun h => ?_, ?_⟩, fun s w ws hrun htaken hcmd hw => ?_⟩
  · by_contra hw
    exact h (decode_illegalHeader hw ws)
  · rintro hw ⟨e, hd, he⟩
    obtain ⟨owed, rfl⟩ := decode_legalHeader_error hw hd
    cases he
  · obtain ⟨e, hd, he⟩ := decode_illegalHeader hw ws
    refine ⟨illegalCommand w s, step_illegal hrun (by rw [htaken, hcmd]; exact hd) he, ?_⟩
    rw [illegalCommand_eq]
    exact ⟨rfl, rfl⟩

/-- Settles O4: the key is `payloadKey`. -/
theorem payloadBytePacking : Obligations.PayloadBytePacking := fun len hseed ws h => by
  have hp := takePayload_eq h
  refine ⟨payloadKey len ws, length_payloadKey len ws, fun a ha => getD_payloadKey ha ws, ?_, ?_, ?_⟩
  · exact (decode_add_header _).trans (decodeK_ok hp _)
  · exact (decode_qry_header _).trans (decodeK_ok hp _)
  · exact (decode_hash_header _).trans (decodeH_ok hp _)

/-- Settles O5: the key is made of the bytes below `LEN` alone. -/
theorem unusedPayloadBytesAreIgnored : Obligations.UnusedPayloadBytesAreIgnored :=
  fun len hseed ws ws' rest hlen hlen' hbytes => by
    have hkey : payloadKey len ws = payloadKey len ws' :=
      List.map_congr_left fun a ha => hbytes a (List.mem_range.1 ha)
    have hp : takePayload len (ws ++ rest) = takePayload len (ws' ++ rest) := by
      rw [takePayload_append hlen, takePayload_append hlen', hkey]
    refine ⟨?_, ?_, ?_⟩
    · simp only [decode_add_header, decodeK, hp]
    · simp only [decode_qry_header, decodeK, hp]
    · simp only [decode_hash_header, decodeH, hp]

end Sys2Proof.Proofs
end

section
/-! PROOFS. What the host does between two steps, and the response of a command (R80, R82, R95, R240). -/

namespace Sys2Proof.Proofs

open Sys2Proof.Machine Sys2Proof.Laws

/-- Settles O18: each of the host's three moves keeps the invariant. -/
theorem hostMovesKeepTheInvariant : Obligations.HostMovesKeepTheInvariant := fun _ hs =>
  ⟨offer_inv hs, raiseRst_inv hs, fun _ _ => takeRsp_inv hs⟩

/-- The status codes are the numbers 0 to 5 (R200). -/
theorem code_toNat_le (st : Status) : st.code.toNat ≤ 5 := by
  cases st <;> decide

/-- Settles O27: the first word of the response is the status word of some status. -/
theorem oneResponsePerCommand : Obligations.OneResponsePerCommand := fun i s t h => by
  obtain ⟨st, v, -, hrsp, -⟩ := exec_response h
  exact ⟨st.code, v, code_toNat_le st, hrsp⟩

end Sys2Proof.Proofs
end

section
/-! PROOFS. Lines of text (R98 to R102): the bytes of a text, the commands of the lines, and worked lines. -/

namespace Sys2Proof.Proofs

open Sys2Proof.Machine Sys2Proof.Laws Sys2Proof.Statements

/-! ## Key literals (R100) -/

/-- A character below code 128 is one byte in UTF-8. -/
theorem utf8EncodeChar_ascii {c : Char} (hc : c.toNat < 128) :
    (String.utf8EncodeChar c).map UInt8.toBitVec = [BitVec.ofNat 8 c.toNat] := by
  have hle : c.val.toNat ≤ 127 := Nat.le_of_lt_succ hc
  rw [String.utf8EncodeChar, if_pos hle]
  rfl

/-- Settles O59: every character is encoded alone. -/
theorem asciiTextKeys : Obligations.AsciiTextKeys := fun cs hcs => by
  rw [keyLitBytes, List.map_eq_flatMap]
  exact List.flatMap_congr fun c hc => utf8EncodeChar_ascii (hcs c hc)

/-- The bytes of a text literal are those of Lean's own encoding of the string (R100). -/
theorem keyLitBytes_text (cs : List Char) : keyLitBytes (.text cs) = utf8Bytes cs := by
  simp [keyLitBytes, utf8Bytes, List.utf8Encode, List.data_toByteArray, List.map_flatMap]

/-- The bytes a key literal stands for, whichever of the two forms it has (R98, R100). -/
theorem keyLitBytes_eq {key : KeyLit} {bs : List Byte}
    (h : key = .bytes bs ∨ ∃ cs, key = .text cs ∧ bs = utf8Bytes cs) : keyLitBytes key = bs := by
  rcases h with rfl | ⟨cs, rfl, rfl⟩
  · rfl
  · exact keyLitBytes_text cs

/-! ## The commands of the lines (R98, R101) -/

/-- The operands of CFG: `P_LO` and `P_HI` are the halves of the pattern (R89). -/
theorem assembleCfg_eq (n seed : Int) (p : RateLit) :
    assembleCfg n p seed =
      .cfg (BitVec.ofInt 32 n) (BitVec.ofNat 32 ((rateLitPattern p).toNat % 2 ^ 32))
        (BitVec.ofNat 32 ((rateLitPattern p).toNat / 2 ^ 32)) (BitVec.ofInt 32 seed) := by
  have hlo : (rateLitPattern p).extractLsb' 0 32 = BitVec.ofNat 32 ((rateLitPattern p).toNat % 2 ^ 32) := by
    apply BitVec.eq_of_toNat_eq
    simp
  have hhi : (rateLitPattern p).extractLsb' 32 32 = BitVec.ofNat 32 ((rateLitPattern p).toNat / 2 ^ 32) := by
    apply BitVec.eq_of_toNat_eq
    simp [Nat.shiftRight_eq_div_pow]
  rw [assembleCfg, hlo, hhi]

/-- Settles O57: the operands of CFG, the bytes of a key, and the addresses of the register names. -/
theorem assembledLinesAreCommands : Obligations.AssembledLinesAreCommands := by
  refine ⟨fun n seed P => ?_, fun key bs seed hkey => ?_, fun a => rfl, rfl, rfl, rfl, rfl, rfl, rfl, rfl, rfl, rfl,
    rfl⟩
  · refine ⟨assembleCfg_eq n seed _, assembleCfg_eq n seed _, ?_⟩
    rintro p rfl
    exact ⟨assembleCfg_eq n seed p, assembleCfg_eq n seed p⟩
  · obtain rfl := keyLitBytes_eq hkey
    refine ⟨rfl, rfl, rfl, rfl, rfl, fun hlt => ?_⟩
    have hlen := (keyLitLen_toNat ((keyFits_iff key).2 hlt)).symm
    simp [assemble, Instr.wf, hlen]

/-! ## Worked lines -/

/-- Settles O6, by running the assembler and the decoder on each line. -/
theorem workedEncodingsDecode : Obligations.WorkedEncodingsDecode := by
  unfold Obligations.WorkedEncodingsDecode
  decide +kernel

/-- Settles O58, by running the assembler on each line. -/
theorem textLinesAreCommandWords : Obligations.TextLinesAreCommandWords := by
  unfold Obligations.TextLinesAreCommandWords
  decide +kernel

end Sys2Proof.Proofs
end

section
/-! PROOFS. The hash: its stage functions (R114, R115, R118), the key consumed four bytes at a time (R119), and the HASH
command (R120, R123). -/

namespace Sys2Proof.Proofs

open Sys2Proof.Machine Sys2Proof.Laws Sys2Proof.Statements

/-! ## Bytes read from the front of a key -/

/-- A byte put below a bit vector: the places above it move up by eight. -/
theorem setWidth_append_byte {n : Nat} (x : BitVec n) (b : Byte) :
    (x ++ b).setWidth 32 = zext32 b + 256#32 * x.setWidth 32 := by
  apply BitVec.eq_of_toNat_eq
  rw [BitVec.toNat_setWidth, BitVec.toNat_append, ← Nat.shiftLeft_add_eq_or_of_lt b.isLt, Nat.shiftLeft_eq]
  simp only [zext32, BitVec.toNat_add, BitVec.toNat_mul, BitVec.toNat_setWidth, BitVec.toNat_ofNat]
  omega

/-- A word put together from four bytes (R93) is the sum by which four bytes of the `KEY` space are read (R15). -/
theorem packWord_eq_sum (b0 b1 b2 b3 : Byte) :
    packWord b0 b1 b2 b3 =
      zext32 b0 + 256#32 * (zext32 b1 + 256#32 * (zext32 b2 + 256#32 * (zext32 b3 + 256#32 * 0#32))) := by
  have hwide : (b3 ++ b2 ++ b1 ++ b0).setWidth 32 =
      zext32 b0 + 256#32 * (zext32 b1 + 256#32 * (zext32 b2 + 256#32 * zext32 b3)) := by
    rw [setWidth_append_byte, setWidth_append_byte, setWidth_append_byte, ← zext32]
  rw [BitVec.mul_zero, BitVec.add_zero, ← hwide]
  exact (BitVec.setWidth_eq _).symm

/-- Four bytes in front move every byte of the `KEY` space up by four addresses (R15). -/
theorem keyRead_cons_four (b0 b1 b2 b3 : Byte) (rest : List Byte) (a n : Nat) :
    keyRead (b0 :: b1 :: b2 :: b3 :: rest) (a + 4) n = keyRead rest a n := by
  induction n generalizing a with
  | zero => rfl
  | succ n ih =>
    have hbyte : keyByte (b0 :: b1 :: b2 :: b3 :: rest) (a + 4) = keyByte rest a := rfl
    rw [keyRead, keyRead, hbyte, Nat.add_right_comm, ih]

theorem keyBlock_cons_four_zero (b0 b1 b2 b3 : Byte) (rest : List Byte) :
    keyBlock (b0 :: b1 :: b2 :: b3 :: rest) 0 = packWord b0 b1 b2 b3 :=
  (packWord_eq_sum b0 b1 b2 b3).symm

theorem keyBlock_cons_four_succ (b0 b1 b2 b3 : Byte) (rest : List Byte) (j : Nat) :
    keyBlock (b0 :: b1 :: b2 :: b3 :: rest) (j + 1) = keyBlock rest j :=
  keyRead_cons_four b0 b1 b2 b3 rest (4 * j) 4

theorem length_cons_four_div (b0 b1 b2 b3 : Byte) (rest : List Byte) :
    (b0 :: b1 :: b2 :: b3 :: rest).length / 4 = rest.length / 4 + 1 :=
  Nat.add_div_right rest.length (Nat.succ_pos 3)

theorem length_cons_four_mod (b0 b1 b2 b3 : Byte) (rest : List Byte) :
    (b0 :: b1 :: b2 :: b3 :: rest).length % 4 = rest.length % 4 :=
  Nat.add_mod_right rest.length 4

theorem tailWord_cons_four (b0 b1 b2 b3 : Byte) (rest : List Byte) :
    tailWord (b0 :: b1 :: b2 :: b3 :: rest) = tailWord rest := by
  rw [tailWord, length_cons_four_div, length_cons_four_mod]
  exact keyRead_cons_four b0 b1 b2 b3 rest (4 * (rest.length / 4)) (rest.length % 4)

/-- A key of one to three bytes is all tail, and the places above it are zero (R57). -/
theorem tailWord_one (b0 : Byte) : tailWord [b0] = packWord b0 0#8 0#8 0#8 := by
  simp [packWord_eq_sum, tailWord, keyRead, keyByte, zext32]

theorem tailWord_two (b0 b1 : Byte) : tailWord [b0, b1] = packWord b0 b1 0#8 0#8 := by
  simp [packWord_eq_sum, tailWord, keyRead, keyByte, zext32]

theorem tailWord_three (b0 b1 b2 : Byte) : tailWord [b0, b1, b2] = packWord b0 b1 b2 0#8 := by
  simp [packWord_eq_sum, tailWord, keyRead, keyByte, zext32]

/-! ## The hash, from the front of the key (R119) -/

/-- The first block is accumulated, then the rest of the key is hashed on (R113 to R115). -/
theorem hashBlocks_cons_four (b0 b1 b2 b3 : Byte) (rest : List Byte) (h : Word) :
    hashBlocks (b0 :: b1 :: b2 :: b3 :: rest) h = hashBlocks rest (acc h (scr (packWord b0 b1 b2 b3))) := by
  rw [hashBlocks, length_cons_four_div, List.range_succ_eq_map, List.foldl_cons, List.foldl_map,
    keyBlock_cons_four_zero]
  simp only [Nat.succ_eq_add_one, keyBlock_cons_four_succ]
  rfl

theorem hashTail_cons_four (b0 b1 b2 b3 : Byte) (rest : List Byte) (h : Word) :
    hashTail (b0 :: b1 :: b2 :: b3 :: rest) h = hashTail rest h := by
  rw [hashTail, length_cons_four_mod, tailWord_cons_four]
  rfl

/-- With one to three bytes there is no block, and the tail is mixed in (R116). -/
theorem hashTail_hashBlocks_of_short {key : List Byte} (hne : key ≠ []) (hlt : key.length < 4) (h : Word) :
    hashTail key (hashBlocks key h) = h ^^^ scr (tailWord key) := by
  have hpos := List.length_pos_of_ne_nil hne
  have hmod : key.length % 4 ≠ 0 := by omega
  rw [hashTail, if_pos hmod, hashBlocks, Nat.div_eq_of_lt hlt]
  rfl

/-- The first equation of `hashFrom`, from its definition as one `match`: the kernel does not check it by unfolding both
sides, since it then evaluates the arithmetic of `acc`. -/
theorem hashFrom_cons_four (len : Word) (b0 b1 b2 b3 : Byte) (rest : List Byte) (h : Word) :
    hashFrom len (b0 :: b1 :: b2 :: b3 :: rest) h = hashFrom len rest (acc h (scr (packWord b0 b1 b2 b3))) := by
  rw [packWord, hashFrom.eq_def]

/-- Consuming a key from the front runs the block stage, the tail stage, the length stage and the finalizer (R119). -/
theorem hashFrom_eq_stages (len : Word) (key : List Byte) (h : Word) :
    hashFrom len key h = fmix (hashTail key (hashBlocks key h) ^^^ len) := by
  induction key, h using hashFrom.induct with
  | case1 h b0 b1 b2 b3 rest ih => rw [hashFrom_cons_four, hashBlocks_cons_four, hashTail_cons_four, packWord, ih]
  | case2 h b0 b1 b2 =>
    rw [hashTail_hashBlocks_of_short (by simp) (by simp), tailWord_three]
    rfl
  | case3 h b0 b1 =>
    rw [hashTail_hashBlocks_of_short (by simp) (by simp), tailWord_two]
    rfl
  | case4 h b0 =>
    rw [hashTail_hashBlocks_of_short (by simp) (by simp), tailWord_one]
    rfl
  | case5 h => rfl

/-- Settles O52, by induction on the key, four bytes at a time. -/
theorem hashByConsumingTheKey : Obligations.HashByConsumingTheKey := fun key seed =>
  (hashFrom_eq_stages (BitVec.ofNat 32 key.length) key seed).symm

/-! ## Stages and the empty input -/

/-- The rotation of R14 is Lean's own. -/
theorem rotl32_eq_rotateLeft (a : Word) {r : Nat} (hr : r < 32) : rotl32 a r = a.rotateLeft r :=
  (BitVec.rotateLeft_eq_rotateLeftAux_of_lt hr).symm

/-- Settles O49: the stages differ from the statement in the rotation alone. -/
theorem stageFunctions : Obligations.StageFunctions := by
  refine ⟨fun w => ?_, fun h s => ?_, fun h => ⟨_, _, _, _, rfl, rfl, rfl, rfl, rfl⟩⟩
  · rw [scr, rotl32_eq_rotateLeft _ (by decide), hashC1, hashC2]
  · rw [acc, rotl32_eq_rotateLeft _ (by decide), hashMul5, hashAddN]

/-- With no block and no tail only the finalizer acts (R121). -/
theorem hash_nil (seed : Word) : hash [] seed = fmix seed := congrArg fmix BitVec.xor_zero

/-- Settles O53: the three values are the finalizer's. -/
theorem emptyInputHash : Obligations.EmptyInputHash := by
  refine ⟨hash_nil, ?_⟩
  simp only [hash_nil]
  decide

/-! ## The HASH command (R120) -/

/-- HASH of data that is not too long answers the hash, whatever the state, and changes nothing else. -/
theorem exec_hash_of_le {len : Word} {s : State} (hlen : len.toNat ≤ s.par.keyMax.toNat) (hseed : Word)
    (data : List Byte) :
    exec (.hash hseed len data) s = .next { s with rsp := s.rsp ++ [0x00000400#32, hash data hseed] } := by
  have hfits : tooLong len s = false := decide_eq_false hlen.not_gt
  have hexec : exec (.hash hseed len data) s = .next (respond .ok 0x04#8 (hash data hseed) s) := by
    simp [exec, execHash, hfits]
  rw [hexec, respond_eq]
  rfl

/-- HASH of longer data is refused with its length (R204). -/
theorem exec_hash_of_lt {len : Word} {s : State} (hlen : s.par.keyMax.toNat < len.toNat) (hseed : Word)
    (data : List Byte) :
    exec (.hash hseed len data) s =
      .next { s with lastErr := 0x00000403#32, rsp := s.rsp ++ [0x00000403#32, len] } := by
  have hlong : tooLong len s = true := decide_eq_true hlen
  have hexec : exec (.hash hseed len data) s = .next (raise .eKeylen 0x04#8 len s) := by
    simp [exec, execHash, hlong]
  rw [hexec, raise_next (by decide)]
  rfl

/-- Settles O48: the only check of HASH is `LEN > KEY_MAX`. -/
theorem hashAnswersTheHash : Obligations.HashAnswersTheHash := fun hseed _ data _ =>
  ⟨fun hlen => exec_hash_of_le hlen hseed data, fun hlen => exec_hash_of_lt hlen hseed data⟩

/-! ## Determinism (R123) -/

/-- No command writes the implementation's parameters (R8, R9, R257). -/
theorem exec_par {i : Instr} {s t : State} (h : exec i s = .next t) : t.par = s.par := by
  obtain ⟨-, -, -, -, -, -, -, -, -, -, hpar⟩ := exec_response h
  exact hpar

/-- No step writes the implementation's parameters (R8, R9, R257). -/
theorem step_par {s t : State} (h : step s = .next t) : t.par = s.par := by
  rcases step_next h with ⟨-, rfl⟩ | ⟨-, -, -, rfl⟩ |
    ⟨-, -, -, ⟨i, rest, -, hexec⟩ | ⟨e, w, -, -, rfl⟩ | ⟨owed, -, rfl⟩⟩
  · exact resetNow_par s
  · rfl
  · exact (exec_par hexec).trans (takeCommand_par rest s)
  · rw [illegalCommand_eq]
  · exact takeAll_par s

/-- A run without a reset keeps the parameters, the host's moves included. -/
theorem evolves_par {s t : State} (h : Evolves s t) : t.par = s.par := by
  induction h with
  | refl => rfl
  | step _ _ hstep ih => exact (step_par hstep).trans ih
  | offer ws _ ih => exact ih
  | takeRsp _ htake ih =>
    obtain ⟨-, -, heq⟩ := takeRsp_next htake
    rw [heq]
    exact ih

/-- Settles O55: the answer depends on the operands and on `KEY_MAX`, which no run changes. -/
theorem hashIsDeterministic : Obligations.HashIsDeterministic := fun s t s' t' hseed len data hs hrun ht => by
  have hpar : t.par = s.par := (evolves_par hrun).trans (exec_par hs)
  rcases le_or_gt len.toNat s.par.keyMax.toNat with hlen | hlen
  · cases hs.symm.trans (exec_hash_of_le hlen hseed data)
    cases ht.symm.trans (exec_hash_of_le (hpar ▸ hlen) hseed data)
    exact ⟨0x00000400#32, hash data hseed, rfl, rfl⟩
  · cases hs.symm.trans (exec_hash_of_lt hlen hseed data)
    cases ht.symm.trans (exec_hash_of_lt (hpar ▸ hlen) hseed data)
    exact ⟨0x00000403#32, len, rfl, rfl⟩

end Sys2Proof.Proofs
end

section
/-! PROOFS. The size that CFG computes: `ceil(x)` over the real numbers (R143), at least 1 and below `2^42`, and the
bounds of the hash-function count for that size (R145). -/

namespace Sys2Proof.Proofs

open Sys2Proof.Machine Sys2Proof.Laws

/-- `x > 0` for accepted operands, since `ln(p) < 0` (R143). -/
theorem sizeReal_pos {n : Nat} {P : BitVec 64} (hv : ValidOperands n P) : 0 < sizeReal n P := by
  obtain ⟨hn, -, h0, h1⟩ := hv
  have hn : (0 : ℝ) < n := by exact_mod_cast hn
  have hlog := (negLn_enclosed 0 h0 h1).1
  have hln : 0 < Real.log 2 := Real.log_pos one_lt_two
  rw [sizeReal, ← mul_neg]
  positivity

/-- The natural and the integer ceiling of the real size agree (R143). -/
theorem natCeil_sizeReal {n : Nat} {P : BitVec 64} (hv : ValidOperands n P) :
    (⌈sizeReal n P⌉₊ : ℤ) = ⌈sizeReal n P⌉ :=
  Int.natCast_ceil_eq_ceil (sizeReal_pos hv).le

/-- There is at least one cell, so the case `m < 1` of R146 does not occur (R145). -/
theorem one_le_sizingM {n : Nat} {P : BitVec 64} (hv : ValidOperands n P) : 1 ≤ sizingM n P := by
  rw [sizingM_eq_ceil hv]
  exact Nat.ceil_pos.2 (sizeReal_pos hv)

/-- Before any truncation the size needs 42 bits at most (R145). -/
theorem sizingM_lt {n : Nat} {P : BitVec 64} (hv : ValidOperands n P) : sizingM n P < 2 ^ 42 := by
  have hn : (n : ℝ) < 2 ^ 31 := by exact_mod_cast hv.2.1
  have hprod := sizingM_mul_log_two_lt hv
  have hln := Real.log_two_gt_d9
  by_contra hle
  have hle : (2 : ℝ) ^ 42 ≤ sizingM n P := by exact_mod_cast not_lt.1 hle
  have hbig : (2 : ℝ) ^ 42 * 0.6931471803 ≤ sizingM n P * Real.log 2 := by gcongr
  linarith

/-- Settles O34: the search's value is `ceil(x)`, and `x` is positive. -/
theorem bitArraySizeIsExact : Obligations.BitArraySizeIsExact := fun n P hv => by
  rw [sizingM_eq_ceil hv, natCeil_sizeReal hv]

/-- Settles O38, by `2 m ln 2 < 2151 n`. -/
theorem hashCountIsBounded : Obligations.HashCountIsBounded := fun _ _ => sizingK_bounds

/-- Settles O39: `x` is positive, and it is at most `1074 n / ln 2`. -/
theorem acceptedOperandsGiveACell : Obligations.AcceptedOperandsGiveACell := fun _ _ hv =>
  ⟨one_le_sizingM hv, sizingM_lt hv⟩

end Sys2Proof.Proofs
end

section
/-! PROOFS. How tight the enclosure of the size is at the first precision (R143, log 10): it is narrower than
`2^(-100)`. -/

namespace Sys2Proof.Proofs

open Sys2Proof.Machine Sys2Proof.Laws

theorem sizingScale_pos (prec : Nat) : 0 < sizingScale prec := Nat.two_pow_pos prec

/-- One unit in the last place of the first precision. -/
noncomputable def firstUnit : ℝ := 1 / (sizingScale sizingBits : ℝ)

theorem firstUnit_eq : firstUnit = 1 / 2 ^ 192 := by
  rw [firstUnit, sizingScale, sizingBits, Nat.cast_pow, Nat.cast_ofNat]

theorem firstUnit_pos : 0 < firstUnit := by
  rw [firstUnit_eq]
  positivity

/-- Bounds at the first scale that are at most `d` units apart, in what they stand for. -/
theorem unscaled_enclosed {lo hi d : Nat} {r : ℝ} (hlo : (lo : ℝ) ≤ sizingScale sizingBits * r)
    (hhi : sizingScale sizingBits * r ≤ (hi : ℝ)) (hwidth : hi ≤ lo + d) :
    lo * firstUnit ≤ r ∧ r ≤ hi * firstUnit ∧ hi * firstUnit ≤ lo * firstUnit + d * firstUnit := by
  have hS : (0 : ℝ) < sizingScale sizingBits := by exact_mod_cast sizingScale_pos _
  have hwidth : (hi : ℝ) ≤ lo + d := by exact_mod_cast hwidth
  simp only [firstUnit, mul_one_div]
  rw [div_le_iff₀' hS, le_div_iff₀' hS, ← add_div]
  exact ⟨hlo, hhi, by gcongr⟩

/-- The bounds of `ln 2` at the first precision are at most 264 units apart. -/
theorem first_ln2_enclosed :
    (ln2Lo sizingBits : ℝ) * firstUnit ≤ Real.log 2 ∧ Real.log 2 ≤ ln2Hi sizingBits * firstUnit ∧
      ln2Hi sizingBits * firstUnit ≤ ln2Lo sizingBits * firstUnit + 264 * firstUnit :=
  unscaled_enclosed (ln2Lo_le _) (ln2Hi_ge _) (lnRatioHi_le (by norm_num) (by norm_num))

/-- The bounds of `-ln(p)` at the first precision are at most `264 * 1075` units apart, 264 for each of at most 1074
powers of two and 264 for the mantissa. -/
theorem first_negLn_enclosed {P : BitVec 64} (h0 : 0 < P.toNat) (h1 : P.toNat < 0x3FF0000000000000) :
    (negLnLo sizingBits (rateParts P).1 (rateParts P).2 : ℝ) * firstUnit ≤ -Real.log (rateReal P) ∧
      -Real.log (rateReal P) ≤ negLnHi sizingBits (rateParts P).1 (rateParts P).2 * firstUnit ∧
      negLnHi sizingBits (rateParts P).1 (rateParts P).2 * firstUnit ≤
        negLnLo sizingBits (rateParts P).1 (rateParts P).2 * firstUnit + (264 * 1075 : ℕ) * firstUnit := by
  obtain ⟨-, hlo, hhi⟩ := negLn_enclosed sizingBits h0 h1
  have hwidth := negLnHi_le (s := (rateParts P).2) (rateReal_eq h0 h1).2.1
  have hs := rateParts_scale_le P
  exact unscaled_enclosed hlo hhi (by omega)

/-- Bounds of the dividend and of the divisor's root bound the quotient. -/
theorem quotient_enclosed {u v w z l c : ℝ} (hu0 : 0 < u) (hu : u ≤ c) (hv : c ≤ v) (hw0 : 0 ≤ w) (hw : w ≤ l)
    (hz : l ≤ z) : w / v ^ 2 ≤ l / c ^ 2 ∧ l / c ^ 2 ≤ z / u ^ 2 := by
  have hc0 : 0 < c := hu0.trans_le hu
  have hz0 : 0 ≤ z := hw0.trans (hw.trans hz)
  constructor <;> gcongr
  exact hw0.trans hw

/-- How far apart two quotients `w / v^2` and `z / u^2` are, when `u` and `v` enclose `ln 2` with width `264 ε`, and `w`
and `z`, with width `264 * 1075 ε`, a number as large as `-ln(p)` can be. -/
theorem quotient_width {u v w z ε : ℝ} (hε : 0 ≤ ε) (hu : 1 / 2 ≤ u) (huv : u ≤ v) (hv : v ≤ 1)
    (huv' : v ≤ u + 264 * ε) (hw : w ≤ 745) (hwz : z ≤ w + (264 * 1075 : ℕ) * ε) :
    z / u ^ 2 ≤ w / v ^ 2 + 2 ^ 24 * ε := by
  have hu0 : 0 < u := by linarith
  have hv0 : 0 < v := by linarith
  have hsq : v ^ 2 - u ^ 2 ≤ 264 * ε * 2 := by
    calc v ^ 2 - u ^ 2 = (v - u) * (v + u) := by ring
      _ ≤ 264 * ε * 2 := mul_le_mul (by linarith) (by linarith) (by linarith) (by positivity)
  have hnonneg : 0 ≤ v ^ 2 - u ^ 2 := sub_nonneg.2 (by gcongr)
  have hdividend : (z - w) * v ^ 2 ≤ 264 * 1075 * ε := by
    push_cast at hwz
    calc (z - w) * v ^ 2 ≤ 264 * 1075 * ε * v ^ 2 := mul_le_mul_of_nonneg_right (by linarith) (sq_nonneg v)
      _ ≤ 264 * 1075 * ε := mul_le_of_le_one_right (by positivity) (pow_le_one₀ hv0.le hv)
  have hdivisor : w * (v ^ 2 - u ^ 2) ≤ 745 * (264 * ε * 2) := mul_le_mul hw hsq hnonneg (by norm_num)
  have hprod : (1 / 2) ^ 2 * (1 / 2) ^ 2 ≤ u ^ 2 * v ^ 2 := by
    gcongr
    exact hu.trans huv
  have hslack := mul_le_mul_of_nonneg_left hprod (show 0 ≤ 2 ^ 24 * ε by positivity)
  rw [div_add' _ _ _ (by positivity), div_le_div_iff₀ (by positivity) (by positivity)]
  linarith

/-- With `n` below `2^31`, the width of the quotients becomes one of the size below `2^(-100)`. -/
theorem scaled_width_lt {n : Nat} (hn : n < 2 ^ 31) : (n : ℝ) * (2 ^ 24 * firstUnit) < 2 ^ (-100 : ℤ) := by
  have hn : (n : ℝ) ≤ 2 ^ 31 := by exact_mod_cast hn.le
  have hunit := firstUnit_pos.le
  calc (n : ℝ) * (2 ^ 24 * firstUnit) ≤ 2 ^ 31 * (2 ^ 24 * firstUnit) := by gcongr
    _ < 2 ^ (-100 : ℤ) := by
      rw [firstUnit_eq]
      norm_num

/-- The quotient whose ceiling is taken at the first precision, in what its numbers stand for. -/
theorem ceilDiv_first_eq {n l b : Nat} (hb : 0 < b) :
    ceilDiv (n * l * sizingScale sizingBits) (b * b) = ⌈n * (l * firstUnit / (b * firstUnit) ^ 2)⌉₊ := by
  have hS : (sizingScale sizingBits : ℝ) ≠ 0 := by exact_mod_cast (sizingScale_pos _).ne'
  have hb0 : (b : ℝ) ≠ 0 := by exact_mod_cast hb.ne'
  rw [ceilDiv_eq_ceil (Nat.mul_pos hb hb), firstUnit]
  push_cast
  congr 1
  field_simp

/-- The integers of the first enclosure are the ceilings of two real numbers that enclose the size and are less than
`2^(-100)` apart. -/
theorem first_size_enclosure {n : Nat} {P : BitVec 64} (hv : ValidOperands n P) :
    ∃ lo hi : ℝ, sizingMLo sizingBits n P = ⌈lo⌉₊ ∧ sizingMHi sizingBits n P = ⌈hi⌉₊ ∧
      lo ≤ sizeReal n P ∧ sizeReal n P ≤ hi ∧ hi < lo + 2 ^ (-100 : ℤ) := by
  obtain ⟨-, hn, h0, h1⟩ := hv
  obtain ⟨hu, hv, huv⟩ := first_ln2_enclosed
  obtain ⟨hw, hz, hwz⟩ := first_negLn_enclosed h0 h1
  have hlogP := neg_log_rateReal_le h0 h1
  have hln := Real.log_two_gt_d9
  have hln' := Real.log_two_lt_d9
  have hw0 : 0 ≤ negLnLo sizingBits (rateParts P).1 (rateParts P).2 * firstUnit :=
    mul_nonneg (Nat.cast_nonneg _) firstUnit_pos.le
  have hunit : 264 * firstUnit ≤ 0.1 := by
    rw [firstUnit_eq]
    norm_num
  have hsize : sizeReal n P = n * (-Real.log (rateReal P) / Real.log 2 ^ 2) := by
    rw [sizeReal]
    ring
  obtain ⟨hlo, hhi⟩ := quotient_enclosed (by linarith) hu hv hw0 hw hz
  refine ⟨_, _, ceilDiv_first_eq (ln2Hi_pos _), ceilDiv_first_eq (ln2Lo_pos (by decide)), ?_, ?_, ?_⟩
  · rw [hsize]
    exact mul_le_mul_of_nonneg_left hlo (Nat.cast_nonneg n)
  · rw [hsize]
    exact mul_le_mul_of_nonneg_left hhi (Nat.cast_nonneg n)
  · have hwidth := quotient_width firstUnit_pos.le (by linarith) (hu.trans hv) (by linarith) huv (by linarith) hwz
    have hscaled := mul_le_mul_of_nonneg_left hwidth (Nat.cast_nonneg (α := ℝ) n)
    rw [mul_add] at hscaled
    exact hscaled.trans_lt (by gcongr; exact scaled_width_lt hn)

/-- Settles O35: an integer strictly inside the first enclosure is nearer to `x` than the enclosure is wide. -/
theorem firstEnclosureIsTight : Obligations.FirstEnclosureIsTight := fun n P hv => by
  obtain ⟨hmLo, hmHi⟩ := sizingM_enclosed (prec := sizingBits) (by decide) hv
  obtain ⟨lo, hi, hlo, hhi, hxlo, hxhi, hwidth⟩ := first_size_enclosure hv
  have hloLe : lo ≤ (sizingMLo sizingBits n P : ℝ) := hlo ▸ Nat.le_ceil lo
  rw [← natCeil_sizeReal hv]
  refine ⟨by exact_mod_cast hmLo, by exact_mod_cast hmHi, ?_, fun hfar => ?_⟩
  · rw [hhi, Nat.ceil_le]
    push_cast
    have : (2 : ℝ) ^ (-100 : ℤ) ≤ 1 := by norm_num
    linarith
  · by_contra hne
    have hlt : (sizingMLo sizingBits n P : ℝ) < hi := by
      rw [← Nat.lt_ceil, ← hhi]
      exact lt_of_le_of_ne (hmLo.trans hmHi) hne
    refine (hfar (sizingMLo sizingBits n P)).not_gt (abs_lt.2 ⟨?_, ?_⟩) <;> push_cast <;> linarith

end Sys2Proof.Proofs
end

section
/-! PROOFS. The hash-function count is exact (R144): no fraction with a denominator that the formula can have lies
between the bounds of `ln 2`, so the lower bound decides the count and `y` is never halfway. -/

namespace Sys2Proof.Proofs

open Sys2Proof.Machine Sys2Proof.Laws

/-- Between neighbouring fractions `a/b < c/d`, those with `c b - a d = 1`, every fraction has a denominator of at least
`b + d`. -/
theorem add_le_of_between_neighbours {a b c d p q : ℕ} (hab : c * b = a * d + 1) (hlo : a * q < p * b)
    (hhi : p * d < c * q) : b + d ≤ q := by
  have hb : b * (p * d + 1) ≤ b * (c * q) := Nat.mul_le_mul_left b hhi
  have hd : d * (a * q + 1) ≤ d * (p * b) := Nat.mul_le_mul_left d hlo
  have hq : b * (c * q) = d * (a * q) + q := by
    calc b * (c * q) = c * b * q := by ring
      _ = d * (a * q) + q := by rw [hab]; ring
  have hcomm : b * (p * d) = d * (p * b) := by ring
  rw [Nat.mul_add] at hb hd
  omega

/-- The bounds of `ln 2` lie between two neighbouring fractions, found by bisection from `0/1` and `1/1`. -/
theorem ln2_between_neighbours :
    5339223998540 * sizingScale sizingBits < 7702871984889 * ln2Lo sizingBits ∧
      8710632072472 * ln2Hi sizingBits < 6037750061929 * sizingScale sizingBits := by
  decide +kernel

/-- No fraction between the bounds of `ln 2` has a denominator below `2^43`. -/
theorem le_of_between_ln2_bounds {p q : ℕ} (hq : 0 < q) (hlo : q * ln2Lo sizingBits ≤ p * sizingScale sizingBits)
    (hhi : p * sizingScale sizingBits ≤ q * ln2Hi sizingBits) : 2 ^ 43 ≤ q := by
  obtain ⟨hleft, hright⟩ := ln2_between_neighbours
  refine le_trans (by norm_num) (add_le_of_between_neighbours (a := 5339223998540) (b := 7702871984889)
    (c := 6037750061929) (d := 8710632072472) (p := p) (by norm_num) ?_ ?_)
  · refine Nat.lt_of_mul_lt_mul_right (a := sizingScale sizingBits) ?_
    calc 5339223998540 * q * sizingScale sizingBits = q * (5339223998540 * sizingScale sizingBits) := by ring
      _ < q * (7702871984889 * ln2Lo sizingBits) := Nat.mul_lt_mul_of_pos_left hleft hq
      _ = 7702871984889 * (q * ln2Lo sizingBits) := by ring
      _ ≤ 7702871984889 * (p * sizingScale sizingBits) := Nat.mul_le_mul_left _ hlo
      _ = p * 7702871984889 * sizingScale sizingBits := by ring
  · refine Nat.lt_of_mul_lt_mul_right (a := sizingScale sizingBits) ?_
    calc p * 8710632072472 * sizingScale sizingBits = 8710632072472 * (p * sizingScale sizingBits) := by ring
      _ ≤ 8710632072472 * (q * ln2Hi sizingBits) := Nat.mul_le_mul_left _ hhi
      _ = q * (8710632072472 * ln2Hi sizingBits) := by ring
      _ < q * (6037750061929 * sizingScale sizingBits) := Nat.mul_lt_mul_of_pos_left hright hq
      _ = 6037750061929 * q * sizingScale sizingBits := by ring

/-- A fraction with a denominator below `2^43` is on one side of `ln 2`, and of its lower bound alike. -/
theorem le_mul_log_two_iff {p q : ℕ} (h0 : 0 < q) (hq : q < 2 ^ 43) :
    (p : ℝ) ≤ q * Real.log 2 ↔ p * sizingScale sizingBits ≤ q * ln2Lo sizingBits := by
  have hS : (0 : ℝ) < sizingScale sizingBits := by exact_mod_cast sizingScale_pos _
  constructor
  · intro hle
    by_contra hlt
    refine hq.not_ge (le_of_between_ln2_bounds h0 (not_le.1 hlt).le ?_)
    have hhi := mul_le_mul_of_nonneg_left (ln2Hi_ge sizingBits) (Nat.cast_nonneg (α := ℝ) q)
    have hmul := mul_le_mul_of_nonneg_right hle hS.le
    have : (p * sizingScale sizingBits : ℝ) ≤ q * ln2Hi sizingBits := by linarith
    exact_mod_cast this
  · intro hle
    have hle : (p * sizingScale sizingBits : ℝ) ≤ q * ln2Lo sizingBits := by exact_mod_cast hle
    have hlo := mul_le_mul_of_nonneg_left (ln2Lo_le sizingBits) (Nat.cast_nonneg (α := ℝ) q)
    exact le_of_mul_le_mul_right (by linarith) hS

/-- `ln 2` is no fraction with a denominator below `2^43`. -/
theorem ne_mul_log_two {p q : ℕ} (h0 : 0 < q) (hq : q < 2 ^ 43) : (p : ℝ) ≠ q * Real.log 2 := by
  intro heq
  have hS : (0 : ℝ) ≤ sizingScale sizingBits := Nat.cast_nonneg _
  have hlo := mul_le_mul_of_nonneg_left (ln2Lo_le sizingBits) (Nat.cast_nonneg (α := ℝ) q)
  have hhi := mul_le_mul_of_nonneg_left (ln2Hi_ge sizingBits) (Nat.cast_nonneg (α := ℝ) q)
  have hmul : (p * sizingScale sizingBits : ℝ) = q * (sizingScale sizingBits * Real.log 2) := by rw [heq]; ring
  rw [← hmul] at hlo hhi
  exact hq.not_ge (le_of_between_ln2_bounds h0 (by exact_mod_cast hlo) (by exact_mod_cast hhi))

section count

variable {n m : ℕ}

/-- `y ≥ j + 1/2` is a comparison of `ln 2` with a fraction that has the denominator `2 m`. -/
theorem add_half_le_countReal_iff (hn : 1 ≤ n) (j : ℕ) :
    (j : ℝ) + 1 / 2 ≤ countReal n m ↔ (((2 * j + 1) * n : ℕ) : ℝ) ≤ (2 * m : ℕ) * Real.log 2 := by
  have hn : (0 : ℝ) < n := by exact_mod_cast hn
  rw [countReal, div_mul_eq_mul_div, le_div_iff₀ hn]
  push_cast
  constructor <;> intro h <;> linarith

/-- `y` is never exactly halfway between two integers, since it is positive and `ln 2` is not the fraction that it would
be (R144 (b)). -/
theorem countReal_ne_half (hn : 1 ≤ n) (hm : 1 ≤ m) (hm' : m < 2 ^ 42) (q : ℤ) : countReal n m ≠ q + 1 / 2 := by
  intro heq
  have hn0 : (0 : ℝ) < n := by exact_mod_cast hn
  have hm0 : (0 : ℝ) < m := by exact_mod_cast hm
  have hy : 0 < countReal n m := mul_pos (div_pos hm0 hn0) (Real.log_pos one_lt_two)
  have hq : (-1 : ℝ) < q := by linarith
  have hq : -1 < q := by exact_mod_cast hq
  obtain ⟨j, rfl⟩ := Int.eq_ofNat_of_zero_le (show 0 ≤ q by omega)
  refine ne_mul_log_two (p := (2 * j + 1) * n) (q := 2 * m) (by omega) (by omega) ?_
  rw [countReal, Int.cast_natCast, div_mul_eq_mul_div, div_eq_iff hn0.ne'] at heq
  push_cast
  linarith

/-- The quotient that the model takes with the lower bound of `ln 2` is `floor(y + 1/2)` (R144). -/
theorem count_quotient_eq_floor (hn : 1 ≤ n) (hm : 1 ≤ m) (hm' : m < 2 ^ 42) :
    (2 * m * ln2Lo sizingBits + n * sizingScale sizingBits) / (2 * n * sizingScale sizingBits) =
      ⌊countReal n m + 1 / 2⌋₊ := by
  have hden : 0 < 2 * n * sizingScale sizingBits := Nat.mul_pos (by omega) (sizingScale_pos _)
  refine eq_of_forall_le_iff fun j => ?_
  cases j with
  | zero => simp
  | succ j =>
    have hscale : (j + 1) * (2 * n * sizingScale sizingBits) =
        (2 * j + 1) * n * sizingScale sizingBits + n * sizingScale sizingBits := by ring
    calc j + 1 ≤ (2 * m * ln2Lo sizingBits + n * sizingScale sizingBits) / (2 * n * sizingScale sizingBits)
        ↔ (2 * j + 1) * n * sizingScale sizingBits ≤ 2 * m * ln2Lo sizingBits := by
          rw [Nat.le_div_iff_mul_le hden, hscale, Nat.add_le_add_iff_right]
      _ ↔ (j : ℝ) + 1 / 2 ≤ countReal n m := by
          rw [add_half_le_countReal_iff hn, le_mul_log_two_iff (by omega) (by omega)]
      _ ↔ j + 1 ≤ ⌊countReal n m + 1 / 2⌋₊ := by
          rw [Nat.le_floor_iff' j.succ_ne_zero]
          push_cast
          constructor <;> intro h <;> linarith

/-- The computed count is `max(1, round(y))` (R144). -/
theorem sizingK_eq_max_floor (hn : 1 ≤ n) (hm : 1 ≤ m) (hm' : m < 2 ^ 42) :
    (sizingK n m : ℤ) = max 1 ⌊countReal n m + 1 / 2⌋ := by
  have hy : 0 ≤ countReal n m := mul_nonneg (by positivity) (Real.log_nonneg one_le_two)
  rw [sizingK, count_quotient_eq_floor hn hm hm', Nat.cast_max, Int.natCast_floor_eq_floor (by linarith), Nat.cast_one]

end count

/-- `max(1, round(y))` in the two cases of `Sizing_exact`, for a `y` that is not halfway (R150). -/
theorem eq_max_floor_iff {y : ℝ} (hy : ∀ q : ℤ, y ≠ q + 1 / 2) (k : ℤ) :
    k = max 1 ⌊y + 1 / 2⌋ ↔ if y < 3 / 2 then k = 1 else k - 1 / 2 < y ∧ y < k + 1 / 2 := by
  split_ifs with hlt
  · have hfloor : ⌊y + 1 / 2⌋ < 2 := Int.floor_lt.2 (by push_cast; linarith)
    rw [max_eq_left (by omega)]
  · have hfloor : 1 ≤ ⌊y + 1 / 2⌋ := Int.le_floor.2 (by push_cast; linarith)
    have hne := hy (k - 1)
    push_cast at hne
    rw [max_eq_right hfloor, eq_comm, Int.floor_eq_iff]
    constructor
    · rintro ⟨hlo, hhi⟩
      exact ⟨lt_of_le_of_ne (by linarith) fun h => hne (by linarith), by linarith⟩
    · rintro ⟨hlo, hhi⟩
      exact ⟨by linarith, by linarith⟩

/-- Settles O36: the lower bound of `ln 2` decides the count, as no half-integer lies between the bounds of `y`. -/
theorem hashCountIsExact : Obligations.HashCountIsExact := fun _ _ hn _ hm hm' =>
  ⟨sizingK_eq_max_floor hn hm hm', countReal_ne_half hn hm hm'⟩

/-- Settles O37: the size is a ceiling, and the count is a rounding that has no ties. -/
theorem sizingExact : Obligations.SizingExact := fun n P hv => by
  refine ⟨fun m => ?_, fun k => ?_⟩
  · rw [bitArraySizeIsExact n P hv, eq_comm, Int.ceil_eq_iff]
  · rw [sizingK_eq_max_floor hv.1 (one_le_sizingM hv) (sizingM_lt hv)]
    exact eq_max_floor_iff (countReal_ne_half hv.1 (one_le_sizingM hv) (sizingM_lt hv)) k

end Sys2Proof.Proofs
end

section
/-! PROOFS. The CFG command (R140): the answer of each of its checks, and its commit. -/

namespace Sys2Proof.Proofs

open Sys2Proof.Machine Sys2Proof.Laws

theorem validRate_iff {P : BitVec 64} : validRate P = true ↔ 0 < P.toNat ∧ P.toNat < 0x3FF0000000000000 := by
  simp [validRate]

theorem sizeFits_iff {m : Nat} {s : State} : sizeFits m s = true ↔ 1 ≤ m ∧ m ≤ s.par.mMax.toNat := by
  simp [sizeFits]

/-- `E_SIZING` changes `LASTERR` and the responses only (R148). -/
theorem raise_eSizing (cause : Word) (s : State) :
    raise .eSizing 0x01#8 cause s = { s with lastErr := 0x00000101#32, rsp := s.rsp ++ [0x00000101#32, cause] } := by
  rw [raise_next (by decide)]
  rfl

section checks

variable {n pLo pHi : Word} {s : State}

/-- A second Filter is refused with the value of `STATUS` (R149, R203). -/
theorem exec_cfg_of_configured (hc : s.cfgd = true) (seed : Word) :
    exec (.cfg n pLo pHi seed) s =
      .next { s with lastErr := 0x00000102#32, rsp := s.rsp ++ [0x00000102#32, 1#32] } := by
  have hstatus : statusReg s = 1#32 := by rw [statusReg, hc]; rfl
  have hexec : exec (.cfg n pLo pHi seed) s = .next (raise .eState 0x01#8 (statusReg s) s) := by
    simp [exec, execCfg, hc]
  rw [hexec, hstatus, raise_next (by decide)]
  rfl

/-- A count that is not positive is refused first (R142). -/
theorem exec_cfg_of_invalid_count (hc : s.cfgd = false) (hn : n.toInt ≤ 0) (seed : Word) :
    exec (.cfg n pLo pHi seed) s =
      .next { s with lastErr := 0x00000101#32, rsp := s.rsp ++ [0x00000101#32, 1#32] } := by
  have hcount : validCount n = false := decide_eq_false hn.not_gt
  have hexec : exec (.cfg n pLo pHi seed) s = .next (raise .eSizing 0x01#8 1#32 s) := by
    simp [exec, execCfg, hc, hcount]
  rw [hexec, raise_eSizing]

/-- A pattern that is no rate strictly between 0 and 1 is refused second (R142). -/
theorem exec_cfg_of_invalid_rate (hc : s.cfgd = false) (hn : 0 < n.toInt)
    (hP : (pHi ++ pLo).toNat = 0 ∨ 0x3FF0000000000000 ≤ (pHi ++ pLo).toNat) (seed : Word) :
    exec (.cfg n pLo pHi seed) s =
      .next { s with lastErr := 0x00000101#32, rsp := s.rsp ++ [0x00000101#32, 2#32] } := by
  have hcount : validCount n = true := decide_eq_true hn
  have hrate : validRate (pHi ++ pLo) = false := Bool.eq_false_iff.2 (mt validRate_iff.1 (by omega))
  have hexec : exec (.cfg n pLo pHi seed) s = .next (raise .eSizing 0x01#8 2#32 s) := by
    simp [exec, execCfg, ratePattern, hc, hcount, hrate]
  rw [hexec, raise_eSizing]

/-- Operands that pass the checks of R142: whether the size fits decides between `E_SIZING(3)` (R146) and the commit
(R147). -/
theorem exec_cfg_of_valid (hc : s.cfgd = false) (hn : 0 < n.toInt) (h0 : 0 < (pHi ++ pLo).toNat)
    (h1 : (pHi ++ pLo).toNat < 0x3FF0000000000000) (seed : Word) :
    exec (.cfg n pLo pHi seed) s =
      if sizeFits (sizingM n.toNat (pHi ++ pLo)) s then
        .next (respond .ok 0x01#8 (BitVec.ofNat 32 (sizingM n.toNat (pHi ++ pLo)))
          (commitFilter (sizingM n.toNat (pHi ++ pLo)) (sizingK n.toNat (sizingM n.toNat (pHi ++ pLo))) seed s))
      else .next (raise .eSizing 0x01#8 3#32 s) := by
  have hcount : validCount n = true := decide_eq_true hn
  have hrate : validRate (pHi ++ pLo) = true := validRate_iff.2 ⟨h0, h1⟩
  cases hfits : sizeFits (sizingM n.toNat (pHi ++ pLo)) s <;>
    simp [exec, execCfg, ratePattern, hc, hcount, hrate, hfits]

/-- The operands of CFG that pass the checks of R142 are those of the sizing formulas. -/
theorem validOperands_of_checks (hn : 0 < n.toInt) (h0 : 0 < (pHi ++ pLo).toNat)
    (h1 : (pHi ++ pLo).toNat < 0x3FF0000000000000) : ValidOperands n.toNat (pHi ++ pLo) :=
  validOperands_of_valid (decide_eq_true hn) (validRate_iff.2 ⟨h0, h1⟩)

end checks

/-- Settles O29: the three checks in the order of R208. -/
theorem cfgRejectsInvalidOperands : Obligations.CfgRejectsInvalidOperands := fun _ _ _ seed _ =>
  ⟨fun hc => exec_cfg_of_configured hc seed, fun hc hn => exec_cfg_of_invalid_count hc hn seed,
    fun hc hn hP => exec_cfg_of_invalid_rate hc hn hP seed⟩

/-- Settles O30: the size that the check compares with `M_MAX` is `ceil(x)`. -/
theorem cfgRejectsSizesThatDoNotFit : Obligations.CfgRejectsSizesThatDoNotFit :=
  fun n pLo pHi seed s hc hn h0 h1 hsize => by
    have hfits : ¬ sizeFits (sizingM n.toNat (pHi ++ pLo)) s = true := by
      rw [sizeFits_iff, sizingM_eq_ceil (validOperands_of_checks hn h0 h1)]
      omega
    rw [exec_cfg_of_valid hc hn h0 h1, if_neg hfits, raise_eSizing]

/-- Settles O33: the commit writes the size and the count in full, since they are below `2^32`. -/
theorem cfgConstructsTheFilter : Obligations.CfgConstructsTheFilter := fun n pLo pHi seed s hc hn h0 h1 hsize => by
  have hv := validOperands_of_checks hn h0 h1
  rw [← sizingM_eq_ceil hv] at hsize
  have hexec := exec_cfg_of_valid hc hn h0 h1 seed
  rw [if_pos (sizeFits_iff.2 ⟨one_le_sizingM hv, hsize⟩), respond_eq] at hexec
  have hm : (BitVec.ofNat 32 (sizingM n.toNat (pHi ++ pLo))).toNat = sizingM n.toNat (pHi ++ pLo) :=
    (BitVec.toNat_ofNat _ _).trans (Nat.mod_eq_of_lt (hsize.trans_lt s.par.mMax.isLt))
  have hk : (BitVec.ofNat 32 (sizingK n.toNat (sizingM n.toNat (pHi ++ pLo)))).toNat =
      sizingK n.toNat (sizingM n.toNat (pHi ++ pLo)) :=
    (BitVec.toNat_ofNat _ _).trans (Nat.mod_eq_of_lt ((sizingK_bounds hv).2.trans_lt (by norm_num)))
  refine ⟨_, hexec, rfl, ?_, ?_, fun _ => rfl⟩
  · simp only [commitFilter_m, hm]
    exact bitArraySizeIsExact _ _ hv
  · simp only [commitFilter_m, commitFilter_k, hm, hk]
    exact sizingK_eq_max_floor hv.1 (one_le_sizingM hv) (sizingM_lt hv)

end Sys2Proof.Proofs
end

section
/-! PROOFS. The index calculator (42_filter_ops R161 to R163): the lane seeds, the reduction of the hash, and the cells of
a key. -/

namespace Sys2Proof.Proofs

open Sys2Proof.Machine Sys2Proof.Laws Sys2Proof.Statements

/-! ## Lane seeds (R161) -/

theorem laneSeed_toNat (s : State) (i : Nat) : (laneSeed s i).toNat = (s.seed.toNat + i) % 2 ^ 32 := by
  simp [laneSeed]

/-- Function numbers below `2^32` have lane seeds of their own. -/
theorem laneSeed_ne {s : State} {i j : Nat} (hi : i < 2 ^ 32) (hj : j < 2 ^ 32) (hij : i ≠ j) :
    laneSeed s i ≠ laneSeed s j := fun heq => by
  have hnat := congrArg BitVec.toNat heq
  rw [laneSeed_toNat, laneSeed_toNat] at hnat
  omega

/-- Settles O44: the numbers below `K` are below `2^32`, so no two of them wrap to one seed. -/
theorem laneSeedsWrapAndDiffer : Obligations.LaneSeedsWrapAndDiffer := fun s =>
  ⟨laneSeed_toNat s, fun _ _ _ hi hj hij => laneSeed_ne (hi.trans s.k.isLt) (hj.trans s.k.isLt) hij⟩

/-! ## The reduction (R162, R163) -/

/-- The second form of R162: a pattern from `2^31` on stands for the negative number `HV - 2^32`. -/
theorem absSint_eq (hv : Word) : absSint hv = if hv.toNat < 2 ^ 31 then hv.toNat else 2 ^ 32 - hv.toNat := by
  rw [absSint, sint32, BitVec.toInt_eq_toNat_cond]
  split_ifs <;> omega

theorem absSint_le (hv : Word) : absSint hv ≤ 2 ^ 31 := by
  rw [absSint_eq]
  split_ifs <;> omega

/-- `HV` and `2^32 - HV` are a number and its negative. -/
theorem absSint_complement (hv : Word) : absSint (BitVec.ofNat 32 (2 ^ 32 - hv.toNat)) = absSint hv := by
  rw [absSint_eq, absSint_eq, BitVec.toNat_ofNat]
  split_ifs <;> omega

/-- Settles O42: the first form is the definition. -/
theorem indexReductionForms : Obligations.IndexReductionForms := fun s key i => by
  refine ⟨rfl, ?_⟩
  rw [filterIndex, reduceIndex, absSint_eq, laneSeed]

/-- Settles O43: the remainder is below `M`, and modulo 1 it is 0. -/
theorem indexIsInRange : Obligations.IndexIsInRange :=
  ⟨fun _ key i hm => Nat.le_sub_one_of_lt (filterIndex_lt hm key i),
    fun hv => ⟨absSint_le hv, (absSint_complement hv).symm⟩, fun _ => Nat.mod_one _⟩

/-! ## The cells of a key (R165) -/

theorem indexOf_eq (s : State) (key : List Byte) (i : Nat) : indexOf s key i = filterIndex s key i := by
  rw [indexOf, BitVec.ofNat_add, BitVec.ofNat_toNat, BitVec.setWidth_eq]
  rfl

/-- The cells of a key are those that ADD and QRY visit. -/
theorem inCells_iff {s : State} {key : List Byte} {a : Nat} : inCells s key a ↔ a ∈ filterIndices s key := by
  simp only [inCells, filterIndices, indexOf_eq, List.mem_map, List.mem_range, eq_comm]

/-- The cells of a key depend on the three registers of the Filter alone. -/
theorem filterIndices_congr {s t : State} (hm : t.m = s.m) (hk : t.k = s.k) (hseed : t.seed = s.seed)
    (key : List Byte) : filterIndices t key = filterIndices s key := by
  have hindex : filterIndex t key = filterIndex s key := funext fun i => by
    simp only [filterIndex, laneSeed, hm, hseed]
  rw [filterIndices, hindex, hk, filterIndices]

/-- In a block with at least one cell, every cell of a key exists (R60, R163). -/
theorem cellExists_of_mem_filterIndices {s : State} (hc : s.cfgd = true) (hm : 1 ≤ s.m.toNat) {key : List Byte} :
    ∀ a ∈ filterIndices s key, cellExists s a = true :=
  List.forall_mem_map.2 fun i _ => cellExists_iff.2 ⟨hc, filterIndex_lt hm key i⟩

/-- With `K ≥ 1` a key has between 1 and `K` cells. -/
theorem card_cells {s : State} (hk : 1 ≤ s.k.toNat) (key : List Byte) :
    1 ≤ ((Finset.range s.k.toNat).image (indexOf s key)).card ∧
      ((Finset.range s.k.toNat).image (indexOf s key)).card ≤ s.k.toNat :=
  ⟨Finset.card_pos.2 ((Finset.nonempty_range_iff.2 (by omega)).image _),
    Finset.card_image_le.trans_eq (Finset.card_range _)⟩

end Sys2Proof.Proofs
end

section
/-! PROOFS. The commands ADD and QRY (42_filter_ops R164 to R171): the answer of each of their checks, their effect, and
what a later QRY sees of an ADD. -/

namespace Sys2Proof.Proofs

open Sys2Proof.Machine Sys2Proof.Laws Sys2Proof.Statements

section commands

variable {len : Word} {s : State}

/-- Before CFG an ADD is refused (R203). -/
theorem exec_add_of_unconfigured (hc : s.cfgd = false) (key : List Byte) :
    exec (.add len key) s = .next (raise .eState 0x02#8 (statusReg s) s) := by
  simp [exec, execAdd, hc]

/-- An ADD of an over-long key is refused (R204). -/
theorem exec_add_of_lt (hc : s.cfgd = true) (hlen : s.par.keyMax.toNat < len.toNat) (key : List Byte) :
    exec (.add len key) s = .next (raise .eKeylen 0x02#8 len s) := by
  have hlong : tooLong len s = true := decide_eq_true hlen
  simp [exec, execAdd, hc, hlong]

/-- An ADD that passes both checks sets the cells of its key. -/
theorem exec_add_of_le (hc : s.cfgd = true) (hm : 1 ≤ s.m.toNat) (hlen : len.toNat ≤ s.par.keyMax.toNat)
    (key : List Byte) :
    exec (.add len key) s =
      .next { s with bits := setList s.bits (filterIndices s key), rsp := s.rsp ++ [0x00000200#32, 0#32] } := by
  have hfits : tooLong len s = false := decide_eq_false hlen.not_gt
  have hset := setCells_eq (cellExists_of_mem_filterIndices hc hm (key := key))
  have hexec : exec (.add len key) s =
      .next (respond .ok 0x02#8 0#32 { s with bits := setList s.bits (filterIndices s key) }) := by
    simp [exec, execAdd, hc, hfits, hset]
  rw [hexec, respond_eq]
  rfl

theorem setWidth_ofBool (b : Bool) : (BitVec.ofBool b).setWidth 32 = if b then 1#32 else 0#32 := by
  cases b <;> rfl

/-- A QRY that passes both checks answers whether every cell of its key is 1. -/
theorem exec_qry_of_le (hc : s.cfgd = true) (hm : 1 ≤ s.m.toNat) (hlen : len.toNat ≤ s.par.keyMax.toNat)
    (key : List Byte) :
    exec (.qry len key) s =
      .next { s with
        rsp := s.rsp ++ [0x00000300#32,
          if (filterIndices s key).all fun a => decide (Memory.read s.bits a = 1#1) then 1#32 else 0#32] } := by
  have hfits : tooLong len s = false := decide_eq_false hlen.not_gt
  have hprobe := probeCells_eq (cellExists_of_mem_filterIndices hc hm (key := key))
  have hexec : exec (.qry len key) s =
      .next (respond .ok 0x03#8
        (if (filterIndices s key).all fun a => decide (Memory.read s.bits a = 1#1) then 1#32 else 0#32) s) := by
    simp only [exec, execQry, hc, hfits, hprobe, setWidth_ofBool, Bool.not_true, Bool.false_eq_true, if_false]
  rw [hexec, respond_eq]
  rfl

/-- Only an ADD that passes both checks is answered `OK`. -/
theorem checks_of_add_ok {key : List Byte} {t : State} (h : exec (.add len key) s = .next t)
    (hok : t.rsp = s.rsp ++ [0x00000200#32, 0#32]) : s.cfgd = true ∧ len.toNat ≤ s.par.keyMax.toNat := by
  have hraise : ∀ e v, e ≠ .ok → t ≠ raise e 0x02#8 v s := fun e v he ht => by
    rw [ht, raise_rsp, List.append_cancel_left_eq, List.cons.injEq] at hok
    exact he (statusWord_inj (st' := .ok) (opc' := 0x02#8) hok.1)
  have hc : s.cfgd = true := by
    by_contra hc
    cases h.symm.trans (exec_add_of_unconfigured (by simpa using hc) key)
    exact hraise _ _ (by decide) rfl
  refine ⟨hc, ?_⟩
  by_contra hlen
  cases h.symm.trans (exec_add_of_lt hc (by omega) key)
  exact hraise _ _ (by decide) rfl

/-! ## Several ADDs (R62, R168) -/

/-- ADDs one after another set the cells of all their keys, since an ADD changes no register an index depends on. -/
theorem runCommands_add (keys : List (Word × List Byte)) (hc : s.cfgd = true) (hm : 1 ≤ s.m.toNat)
    (hlen : ∀ d ∈ keys, d.1.toNat ≤ s.par.keyMax.toNat) :
    runCommands (keys.map fun d => Instr.add d.1 d.2) s =
      .next { s with
        bits := setList s.bits (keys.flatMap fun d => filterIndices s d.2)
        rsp := s.rsp ++ keys.flatMap fun _ => [0x00000200#32, 0#32] } := by
  induction keys generalizing s with
  | nil => simp [runCommands]
  | cons d keys ih =>
    rw [List.forall_mem_cons] at hlen
    obtain ⟨hd, hkeys⟩ := hlen
    simp only [List.map_cons, runCommands, exec_add_of_le hc hm hd]
    rw [ih]
    · simp only [List.flatMap_cons, List.foldl_append, List.append_assoc]
      rfl
    · exact hc
    · exact hm
    · exact hkeys

end commands

/-! ## The statements -/

/-- Settles O24: from the ADD on its key's cells are 1, the registers that give their addresses stay, and so does
`KEY_MAX`. -/
theorem noFalseNegatives : Obligations.NoFalseNegatives := fun s t u len key hs hadd hok hrun => by
  obtain ⟨hc, hlen⟩ := checks_of_add_ok hadd hok
  obtain ⟨hm, -⟩ := hs.configured hc
  have htbits : t.bits = setList s.bits (filterIndices s key) := by
    cases hadd.symm.trans (exec_add_of_le hc hm hlen key)
    rfl
  have hst := exec_filterKept hc hadd
  have htu := evolves_filterKept hst.cfgd hrun
  obtain ⟨huc, hum, huk, huseed, -⟩ := hst.trans htu
  have hpar : u.par = s.par := (evolves_par hrun).trans (exec_par hadd)
  have hset : (filterIndices u key).all (fun a => decide (Memory.read u.bits a = 1#1)) = true := by
    obtain ⟨as, hubits⟩ := htu.bits
    rw [filterIndices_congr hum huk huseed, hubits, htbits, List.all_eq_true]
    intro a ha
    refine decide_eq_true (setList_keeps_set (setList_wf hs.memory _) as ?_)
    rw [setList_read hs.memory, if_pos ha]
  rw [exec_qry_of_le huc (hum ▸ hm) (hpar ▸ hlen), if_pos hset]

/-- Settles O40: the cells that ADD visits are those of the key. -/
theorem addSetsExactlyItsCells : Obligations.AddSetsExactlyItsCells := fun len key s hs hc hlen => by
  obtain ⟨hm, -, hk, -⟩ := hs.configured hc
  obtain ⟨hpos, hle⟩ := card_cells hk key
  refine ⟨hpos, hle, _, exec_add_of_le hc hm hlen key, rfl, fun a ha => ?_, fun a ha => ?_⟩
  · rw [setList_read hs.memory, if_pos (inCells_iff.1 ha)]
  · rw [setList_read hs.memory, if_neg (mt inCells_iff.2 ha)]

/-- Settles O41: the cells that QRY probes are those of the key. -/
theorem qryAnswersWhetherAllCellsAreSet : Obligations.QryAnswersWhetherAllCellsAreSet := fun len key s hs hc hlen => by
  obtain ⟨hm, -⟩ := hs.configured hc
  simp only [inCells_iff, exec_qry_of_le hc hm hlen, List.all_eq_true, decide_eq_true_iff]
  exact ⟨fun h => by rw [if_pos h], fun h => by rw [if_neg h],
    probeCells_eq (cellExists_of_mem_filterIndices hc hm)⟩

/-- Settles O45: the addresses that two sequences of the same keys set are the same. -/
theorem addsSetTheUnion : Obligations.AddsSetTheUnion := fun s keys hs hc hlen => by
  obtain ⟨hm, -⟩ := hs.configured hc
  refine ⟨_, runCommands_add keys hc hm hlen, fun a => ?_, fun keys' hkeys => ?_⟩
  · simp only [setList_read hs.memory, List.mem_flatMap, inCells_iff]
    split_ifs with h <;> simp [h]
  · refine ⟨_, runCommands_add keys' hc hm fun d hd => hlen d ((hkeys d).1 hd), setList_congr hs.memory fun a => ?_⟩
    simp only [List.mem_flatMap, hkeys]

end Sys2Proof.Proofs
end

section
/-! PROOFS. The parallel operators: rounds of any number of lanes visit the cells that ADD and QRY visit (42_filter_ops
R63, R170). -/

namespace Sys2Proof.Proofs

open Sys2Proof.Machine Sys2Proof.Laws

/-- With a lane in each round and fuel for every function number, the rounds are the function numbers in their order. -/
theorem flatten_laneRounds {lanes : Nat} (hl : 1 ≤ lanes) {fuel : Nat} {is : List Nat} (hfuel : is.length ≤ fuel) :
    (laneRounds lanes fuel is).flatten = is := by
  induction fuel generalizing is with
  | zero => rw [List.eq_nil_of_length_eq_zero (Nat.le_zero.1 hfuel), laneRounds, List.flatten_nil]
  | succ fuel ih =>
    cases is with
    | nil => rfl
    | cons i is =>
      have hrest : ((i :: is).drop lanes).length ≤ fuel := by
        rw [List.length_drop]
        omega
      rw [laneRounds, List.flatten_cons, ih hrest, List.take_append_drop]

section rounds

variable {s : State} (hm : 1 ≤ s.m.toNat) (key : List Byte) (l : Lane)
include hm

/-- The parallel set operator sets the cells of all function numbers of its rounds. -/
theorem setRounds_eq (rounds : List (List Nat)) (mem : Memory) :
    setRounds s key l rounds mem = setList mem (rounds.flatten.map (filterIndex s key)) := by
  induction rounds generalizing mem with
  | nil => rfl
  | cons r rs ih =>
    rw [setRounds, ih]
    simp only [laneRun_idx_toNat hm, List.flatten_cons, List.map_append, List.foldl_append]

/-- The parallel probe operator answers whether the cells of all function numbers of its rounds are 1. -/
theorem probeRounds_eq (rounds : List (List Nat)) :
    probeRounds s key l rounds =
      (rounds.flatten.map (filterIndex s key)).all fun a => decide (Memory.read s.bits a = 1#1) := by
  have hhit : ∀ i, (laneProbe s (laneRun s key i l)).hit = Memory.read s.bits (filterIndex s key i) := fun i => by
    rw [laneProbe, laneRun_idx_toNat hm]
  simp only [probeRounds, hhit, List.all_map, List.all_flatten]
  rfl

end rounds

/-- Settles O47: the rounds, put together, are the function numbers of the command. -/
theorem lanesInRoundsAgree : Obligations.LanesInRoundsAgree := fun lanes l s len key hl hs hc hlen => by
  obtain ⟨hm, -⟩ := hs.configured hc
  have hflat := flatten_laneRounds hl (List.length_range (n := s.k.toNat)).le
  refine ⟨⟨_, exec_add_of_le hc hm hlen key, ?_⟩, ?_⟩
  · rw [setRounds_eq hm, hflat, filterIndices]
  · rw [exec_qry_of_le hc hm hlen, probeRounds_eq hm, hflat, filterIndices]

end Sys2Proof.Proofs
end

section
/-! PROOFS. The control registers (43_system): what a read by RDCSR answers (R190, R205), and which step writes which
register (R191). -/

namespace Sys2Proof.Proofs

open Sys2Proof.Machine Sys2Proof.Laws

/-! ## RDCSR (R190, R205) -/

/-- RDCSR of a mapped register answers its value and changes nothing else (R61, R190). -/
theorem exec_rdcsr_of_mapped {csra : Byte} {s : State} {v : Word} (h : csrRead csra s = some v) :
    exec (.rdcsr csra) s = .next { s with rsp := s.rsp ++ [0x00000500#32, v] } := by
  have hexec : exec (.rdcsr csra) s = .next (respond .ok 0x05#8 v s) := by
    simp [exec, execRdcsr, h]
  rw [hexec, respond_eq]
  rfl

/-- RDCSR of any other address is refused with the address (R205). -/
theorem exec_rdcsr_of_unmapped {csra : Byte} {s : State} (h : csrRead csra s = none) :
    exec (.rdcsr csra) s =
      .next { s with lastErr := 0x00000504#32, rsp := s.rsp ++ [0x00000504#32, zext32 csra] } := by
  have hexec : exec (.rdcsr csra) s = .next (raise .eCsr 0x05#8 (zext32 csra) s) := by
    simp [exec, execRdcsr, h]
  rw [hexec, raise_next (by decide)]
  rfl

/-- No register is mapped above 0x07 (R30). -/
theorem csrRead_eq_none {csra : Byte} (h : 0x07 < csra.toNat) (s : State) : csrRead csra s = none :=
  Option.not_isSome_iff_eq_none.1 (mt (csrRead_isSome csra s).1 h.not_ge)

/-- Address 0x01 reads `STATUS`, whose bit 0 is `CFGD` (R29, R30). -/
theorem csrRead_status (s : State) : csrRead 0x01#8 s = some (if s.cfgd then 1#32 else 0#32) :=
  congrArg some (setWidth_ofBool s.cfgd)

/-- Settles O56, row by row of the register map. -/
theorem rdcsrReadsTheMap : Obligations.RdcsrReadsTheMap := fun csra s => by
  refine ⟨fun hmapped => ?_, fun hunmapped => ?_⟩
  · have hcsra : csra = BitVec.ofNat 8 csra.toNat := by simp
    generalize csra.toNat = a at hmapped hcsra
    subst hcsra
    match a, hmapped with
    | 0, _ => exact exec_rdcsr_of_mapped rfl
    | 1, _ => exact exec_rdcsr_of_mapped (csrRead_status s)
    | 2, _ => exact exec_rdcsr_of_mapped rfl
    | 3, _ => exact exec_rdcsr_of_mapped rfl
    | 4, _ => exact exec_rdcsr_of_mapped rfl
    | 5, _ => exact exec_rdcsr_of_mapped rfl
    | 6, _ => exact exec_rdcsr_of_mapped rfl
    | 7, _ => exact exec_rdcsr_of_mapped rfl
  · rw [exec_rdcsr_of_unmapped (csrRead_eq_none hunmapped s), BitVec.ofNat_toNat, zext32]

/-! ## Who writes the registers (R191) -/

/-- A command that is no CFG leaves the registers of the Filter. -/
theorem exec_filterRegisters {i : Instr} {s t : State} (h : exec i s = .next t) :
    (t.m = s.m ∧ t.k = s.k ∧ t.seed = s.seed ∧ t.cfgd = s.cfgd) ∨ ∃ n pLo pHi seed, i = .cfg n pLo pHi seed := by
  rcases exec_next h with ⟨st, v, -, -, rfl⟩ | ⟨v, heq, -⟩ | ⟨n, pLo, pHi, seed, rfl, -⟩
  · exact .inl ⟨rfl, rfl, rfl, rfl⟩
  · rw [heq]
    exact .inl ⟨rfl, rfl, rfl, rfl⟩
  · exact .inr ⟨n, pLo, pHi, seed, rfl⟩

/-- A step without reset leaves the registers of the Filter, unless it runs a CFG. -/
theorem step_filterRegisters {s t : State} (hr : s.rst = false) (h : step s = .next t) :
    (t.m = s.m ∧ t.k = s.k ∧ t.seed = s.seed ∧ t.cfgd = s.cfgd) ∨
      ∃ n pLo pHi seed rest, decode (s.taken ++ s.cmd) = .ok (.cfg n pLo pHi seed, rest) := by
  rcases step_next h with ⟨hr', -⟩ | ⟨-, -, -, rfl⟩ |
    ⟨-, -, -, ⟨i, rest, hd, hexec⟩ | ⟨e, w, -, -, rfl⟩ | ⟨owed, -, rfl⟩⟩
  · exact absurd (hr.symm.trans hr') (by decide)
  · exact .inl ⟨rfl, rfl, rfl, rfl⟩
  · refine (exec_filterRegisters hexec).imp id ?_
    rintro ⟨n, pLo, pHi, seed, rfl⟩
    exact ⟨n, pLo, pHi, seed, rest, hd⟩
  · rw [illegalCommand_eq]
    exact .inl ⟨rfl, rfl, rfl, rfl⟩
  · exact .inl ⟨rfl, rfl, rfl, rfl⟩

/-- A step without reset leaves the halt flag, unless it meets an illegal header (R206). -/
theorem step_haltFlag {s t : State} (hr : s.rst = false) (h : step s = .next t) :
    t.halted = s.halted ∨ ∃ e w, decode (s.taken ++ s.cmd) = .error e ∧ e.illegalHeader = some w := by
  rcases step_next h with ⟨hr', -⟩ | ⟨-, -, -, rfl⟩ |
    ⟨-, -, -, ⟨i, rest, -, hexec⟩ | ⟨e, w, hd, he, -⟩ | ⟨owed, -, rfl⟩⟩
  · exact absurd (hr.symm.trans hr') (by decide)
  · exact .inl rfl
  · exact .inl ((exec_halted hexec).trans (takeCommand_halted rest s))
  · exact .inr ⟨e, w, hd, he⟩
  · exact .inl rfl

/-- A step without reset leaves `LASTERR`, unless its response is not `OK` (R26). -/
theorem step_lastErr {s t : State} (hr : s.rst = false) (h : step s = .next t) :
    t.lastErr = s.lastErr ∨ ∃ w v, t.rsp = s.rsp ++ [w, v] ∧ w.extractLsb' 0 8 ≠ 0x00#8 := by
  rcases step_response hr h with ⟨-, herr⟩ | ⟨st, w, v, ws, -, hrsp, herr⟩
  · exact .inl herr
  · by_cases hok : st = .ok
    · exact .inl (by rw [herr, if_pos hok])
    · refine .inr ⟨_, v, hrsp, ?_⟩
      rwa [statusWord_code, ne_eq, code_eq_zero_iff]

/-- Settles O26: each part is a register's only writer other than reset. -/
theorem whoWritesTheRegisters : Obligations.WhoWritesTheRegisters := fun s t hr h => by
  refine ⟨fun hne => (step_filterRegisters hr h).resolve_left ?_, (step_lastErr hr h).resolve_left,
    (step_haltFlag hr h).resolve_left⟩
  rintro ⟨hm, hk, hseed, hc⟩
  simp [hm, hk, hseed, hc] at hne

end Sys2Proof.Proofs
end

section
/-! PROOFS. Exceptions (60_exceptions R203, R204, R206): the illegal header, commands in the wrong lifecycle state, and
over-long keys. -/

namespace Sys2Proof.Proofs

open Sys2Proof.Machine Sys2Proof.Laws Sys2Proof.Statements

/-! ## The illegal header (R206) -/

section illegal

variable {s : State} {w : Word} {ws : List Word}

/-- With no command in progress, an illegal header is the one word that is taken. -/
theorem illegalCommand_eq_of_cmd (htaken : s.taken = []) (hcmd : s.cmd = w :: ws) :
    illegalCommand w s =
      { s with
        cmd := ws
        pos := s.pos + 1
        lastErr := statusWord .eIllegal (opcOf w)
        rsp := s.rsp ++ [statusWord .eIllegal (opcOf w), w]
        halted := true } := by
  rw [illegalCommand_eq, streamWords, htaken, hcmd]
  simp

/-- A running block with no command in progress runs `illegalCommand` at an illegal header. -/
theorem step_of_not_legalHeader (hrun : running s) (htaken : s.taken = []) (hcmd : s.cmd = w :: ws)
    (hw : ¬ legalHeader w) : step s = .next (illegalCommand w s) := by
  obtain ⟨e, hd, he⟩ := decode_illegalHeader hw ws
  exact step_illegal hrun (by rw [htaken, hcmd]; exact hd) he

end illegal

theorem cmdReady_of_halted {s : State} (hh : s.halted = true) : cmdReady s = false := by
  simp [cmdReady, hh]

/-- The step after the host has raised `rst` is the reset, from any state (R211, R240). -/
theorem step_raiseRst (s : State) : step (raiseRst s) = .next (resetNow (raiseRst s)) := by
  simp [step]

/-- Settles O11: the step is `illegalCommand`, and its result is halted with `rst = 0`. -/
theorem illegalHeaderHaltsTheBlock : Obligations.IllegalHeaderHaltsTheBlock := by
  intro s w ws hrun htaken hcmd hw t
  have ht : illegalCommand w s = t := illegalCommand_eq_of_cmd htaken hcmd
  have hhalted : t.halted = true := rfl
  have ⟨hrst, _, _⟩ := hrun
  exact ⟨ht ▸ step_of_not_legalHeader hrun htaken hcmd hw, step_halted hhalted hrst, cmdReady_of_halted hhalted,
    _, step_raiseRst t, resetNow_halted _⟩

/-! ## The wrong lifecycle state (R203) -/

/-- The value of `E_STATE` in an unconfigured block (R29, R203). -/
theorem statusReg_of_unconfigured {s : State} (hc : s.cfgd = false) : statusReg s = 0#32 := by
  rw [statusReg, hc]
  rfl

/-- Before CFG a QRY is refused (R203). -/
theorem exec_qry_of_unconfigured {s : State} (hc : s.cfgd = false) (len : Word) (key : List Byte) :
    exec (.qry len key) s = .next (raise .eState 0x03#8 (statusReg s) s) := by
  simp [exec, execQry, hc]

/-- HASH needs no Filter: it answers `OK` or `E_KEYLEN` (R120, R203). -/
theorem exec_hash_status_ne_eState {hseed len : Word} {data : List Byte} {s t : State}
    (h : exec (.hash hseed len data) s = .next t) :
    ∃ st v, st ≠ Status.eState ∧ t.rsp = s.rsp ++ [statusWord st 0x04#8, v] := by
  rcases le_or_gt len.toNat s.par.keyMax.toNat with hlen | hlen
  · cases h.symm.trans (exec_hash_of_le hlen hseed data)
    exact ⟨.ok, _, by decide, rfl⟩
  · cases h.symm.trans (exec_hash_of_lt hlen hseed data)
    exact ⟨.eKeylen, _, by decide, rfl⟩

/-- RDCSR needs no Filter: it answers `OK` or `E_CSR` (R190, R203). -/
theorem exec_rdcsr_status_ne_eState {csra : Byte} {s t : State} (h : exec (.rdcsr csra) s = .next t) :
    ∃ st v, st ≠ Status.eState ∧ t.rsp = s.rsp ++ [statusWord st 0x05#8, v] := by
  cases hcsr : csrRead csra s with
  | some v =>
    cases h.symm.trans (exec_rdcsr_of_mapped hcsr)
    exact ⟨.ok, _, by decide, rfl⟩
  | none =>
    cases h.symm.trans (exec_rdcsr_of_unmapped hcsr)
    exact ⟨.eCsr, _, by decide, rfl⟩

/-- The first word of a response that is not `E_STATE` does not have its code. -/
theorem statusWord_code_ne_eState {st : Status} (hst : st ≠ .eState) (opc : Byte) :
    (statusWord st opc).extractLsb' 0 8 ≠ 0x02#8 := by
  rw [statusWord_code]
  exact fun hcode => hst (code_inj (st' := .eState) hcode)

/-- Settles O31: the refusals carry the value of `STATUS`, and the commands that need no Filter have other statuses. -/
theorem stateErrorsByLifecycle : Obligations.StateErrorsByLifecycle := by
  refine ⟨fun len key s hc => ⟨?_, ?_⟩, fun _ _ _ seed s hc => exec_cfg_of_configured hc seed,
    fun hseed len data csra s t h => ?_⟩
  · rw [exec_add_of_unconfigured hc, statusReg_of_unconfigured hc, raise_next (by decide)]
    rfl
  · rw [exec_qry_of_unconfigured hc, statusReg_of_unconfigured hc, raise_next (by decide)]
    rfl
  · rcases h with h | h
    · obtain ⟨st, v, hst, hrsp⟩ := exec_hash_status_ne_eState h
      exact ⟨_, v, hrsp, statusWord_code_ne_eState hst _⟩
    · obtain ⟨st, v, hst, hrsp⟩ := exec_rdcsr_status_ne_eState h
      exact ⟨_, v, hrsp, statusWord_code_ne_eState hst _⟩

/-! ## Over-long keys (R204) -/

/-- A QRY of an over-long key is refused (R204). -/
theorem exec_qry_of_lt {len : Word} {s : State} (hc : s.cfgd = true) (hlen : s.par.keyMax.toNat < len.toNat)
    (key : List Byte) : exec (.qry len key) s = .next (raise .eKeylen 0x03#8 len s) := by
  have hlong : tooLong len s = true := decide_eq_true hlen
  simp [exec, execQry, hc, hlong]

/-- Settles O32: ADD and QRY check the length after the state, HASH checks it alone, and `LEN` is a 32-bit number. -/
theorem longKeysAreRefused : Obligations.LongKeysAreRefused := fun len hseed key s => by
  refine ⟨fun hlen => ⟨fun hc => ⟨?_, ?_⟩, exec_hash_of_lt hlen hseed key⟩, fun hmax => ?_⟩
  · rw [exec_add_of_lt hc hlen, raise_next (by decide)]
    rfl
  · rw [exec_qry_of_lt hc hlen, raise_next (by decide)]
    rfl
  · rw [hmax]
    exact Nat.le_pred_of_lt len.isLt

end Sys2Proof.Proofs
end

section
/-! PROOFS. Reset, the response buffer, and how the words of a command arrive (70_reset_and_hazards R240, R241, R255,
R257, R263). -/

namespace Sys2Proof.Proofs

open Sys2Proof.Machine Sys2Proof.Laws Sys2Proof.Statements

/-! ## Words that arrive in two moves (R255) -/

/-- Once a command has begun, further words complete it or leave it waiting: its header was judged already (R208). -/
theorem decode_append_of_waiting {ws : List Word} {owed : Nat} (hne : ws ≠ [])
    (hd : decode ws = .error (.waiting owed)) (more : List Word) :
    (∃ i rest, decode (ws ++ more) = .ok (i, rest)) ∨ ∃ owed', decode (ws ++ more) = .error (.waiting owed') := by
  obtain ⟨w, ws, rfl⟩ := List.exists_cons_of_ne_nil hne
  have hw : legalHeader w := by
    by_contra hw
    obtain ⟨e, hd', he⟩ := decode_illegalHeader hw ws
    cases hd.symm.trans hd'
    cases he
  cases hmore : decode (w :: ws ++ more) with
  | ok r =>
    obtain ⟨i, rest⟩ := r
    exact .inl ⟨i, rest, rfl⟩
  | error e =>
    obtain ⟨owed', rfl⟩ := decode_legalHeader_error hw hmore
    exact .inr ⟨owed', rfl⟩

section arrival

variable {s : State} (more : List Word)

/-- The words at hand are the same whether the words on offer were taken before more came or not. -/
theorem words_offer_takeAll :
    (offer more (takeAll s)).taken ++ (offer more (takeAll s)).cmd = (s.taken ++ s.cmd) ++ more := by
  simp

/-- The words sent later come after those at hand (R80). -/
theorem words_offer : (offer more s).taken ++ (offer more s).cmd = (s.taken ++ s.cmd) ++ more := by
  simp

theorem takeAll_offer_takeAll : takeAll (offer more (takeAll s)) = takeAll (offer more s) := by
  simp [takeAll, offer, Nat.add_assoc]

/-- A command that ends among the words sent later leaves the same state (R40). -/
theorem takeCommand_offer_takeAll {rest : List Word} (hrest : rest.length ≤ more.length) :
    takeCommand rest (offer more (takeAll s)) = takeCommand rest (offer more s) := by
  have hpos : s.pos + s.cmd.length + (more.length - rest.length) =
      s.pos + (s.cmd.length + more.length - rest.length) := by omega
  simp [takeCommand, offer, takeAll, hpos]

end arrival

/-- Settles O10. With no word on offer the wait changes nothing; otherwise a command has begun, and the words sent later
complete it or leave the block waiting. -/
theorem framingIgnoresHowWordsArrive : Obligations.FramingIgnoresHowWordsArrive := fun s t owed more hrun hd ht => by
  cases (step_waiting hrun hd).symm.trans ht
  by_cases hcmd : s.cmd = []
  · rw [takeAll_eq_self hcmd]
  have hrun₁ : running (offer more s) := hrun
  have hrun₂ : running (offer more (takeAll s)) := hrun
  have hne : s.taken ++ s.cmd ≠ [] := List.append_ne_nil_of_right_ne_nil _ hcmd
  rcases decode_append_of_waiting hne hd more with ⟨i, rest, hd'⟩ | ⟨owed', hd'⟩
  · obtain ⟨pre, hpre⟩ := rest_suffix hd hd'
    have hrest : rest.length ≤ more.length := by simp [hpre]
    rw [step_command hrun₁ ((words_offer more).symm ▸ hd'), step_command hrun₂ ((words_offer_takeAll more).symm ▸ hd'),
      takeCommand_offer_takeAll more hrest]
  · rw [step_waiting hrun₁ ((words_offer more).symm ▸ hd'), step_waiting hrun₂ ((words_offer_takeAll more).symm ▸ hd'),
      takeAll_offer_takeAll]

/-! ## The answer to a whole command (R263) -/

/-- A command run without reset has two response words more on offer than before it (R82, R95). -/
theorem exec_offers_response {i : Instr} {s t : State} (hr : s.rst = false) (h : exec i s = .next t) :
    ∃ w v, t.rsp = s.rsp ++ [w, v] ∧ rspValid t = true := by
  obtain ⟨st, v, -, hrsp, -, -, -, -, -, hrst, -⟩ := exec_response h
  exact ⟨_, v, hrsp, by simp [rspValid, hrsp, hrst, hr]⟩

/-- Settles O21: a running block in a good state answers, and what it answers is the decoded command's response. -/
theorem completeCommandIsAnswered : Obligations.CompleteCommandIsAnswered := fun s i rest hs hrun hd => by
  obtain ⟨t, ht⟩ := step_answers hs hrun
  have hexec : exec i (takeCommand rest s) = .next t := (step_command hrun hd).symm.trans ht
  obtain ⟨hr, -, -⟩ := hrun
  obtain ⟨w, v, hrsp, hvalid⟩ := exec_offers_response (s := takeCommand rest s) hr hexec
  exact ⟨t, w, v, ht, hrsp, hvalid⟩

/-! ## Reset (R240, R241) -/

theorem step_of_rst {s : State} (hr : s.rst = true) : step s = .next (resetNow s) := by
  simp [step, hr]

/-- With `rst = 1` no word moves on either stream (R240). -/
theorem ready_valid_of_rst {s : State} (hr : s.rst = true) : cmdReady s = false ∧ rspValid s = false := by
  simp [cmdReady, rspValid, hr]

/-- Settles O13: the step is `resetNow`, whose fields have the reset values. -/
theorem resetGivesTheResetValues : Obligations.ResetGivesTheResetValues := fun s hr => by
  obtain ⟨hready, hvalid⟩ := ready_valid_of_rst hr
  exact ⟨hready, hvalid, resetNow s, step_of_rst hr, rfl, rfl, rfl, rfl, rfl, rfl, rfl, rfl, rfl, rfl, rfl, rfl, rfl, rfl⟩

/-- Settles O14: `resetNow` is the reset state with the parameters, and the words offered to it are all it has. -/
theorem resetEmptiesBothStreams : Obligations.ResetEmptiesBothStreams := fun s =>
  ⟨resetNow s, step_raiseRst s, rfl, fun ws => by simp⟩

/-! ## A full response buffer (R257) -/

theorem rspRoom_eq_false {s : State} {d : Nat} (hd : s.par.rspDepth = some d) (hlt : d < s.rsp.length + 2) :
    rspRoom s = false := by
  simpa [rspRoom, hd] using hlt

theorem step_of_full {s : State} (hr : s.rst = false) (hh : s.halted = false) (hroom : rspRoom s = false) :
    step s = .next s := by
  simp [step, hr, hh, hroom]

theorem cmdReady_of_full {s : State} (hroom : rspRoom s = false) : cmdReady s = false := by
  simp [cmdReady, hroom]

/-- The host takes the oldest response word, and nothing of the command stream (R82). -/
theorem takeRsp_keeps_commands {s t : State} {w : Word} (h : takeRsp s = some (w, t)) :
    rspData s = some w ∧ s.rsp = w :: t.rsp ∧ t.cmd = s.cmd ∧ t.taken = s.taken ∧ t.pos = s.pos := by
  obtain ⟨-, hrsp, heq⟩ := takeRsp_next h
  refine ⟨by rw [rspData, hrsp, List.head?_cons], hrsp, ?_⟩
  rw [heq]
  exact ⟨rfl, rfl, rfl⟩

/-- Settles O15: with no room for a response the step is no change, and the host's taking one touches `rsp` alone. -/
theorem fullResponseBufferHoldsTheBlock : Obligations.FullResponseBufferHoldsTheBlock :=
  fun s hr hh ⟨_, hd, hlt⟩ =>
    have hroom : rspRoom s = false := rspRoom_eq_false hd hlt
    ⟨step_of_full hr hh hroom, cmdReady_of_full hroom, fun _ _ => takeRsp_keeps_commands⟩

end Sys2Proof.Proofs
end
